-- ==== Sys2Proof/Word.lean ====
section
/-! DEFINITION. The word types of the machine (spec/00_scope.md R5, R7, R10): every quantity is unsigned. -/

namespace Sys2Proof

/-- An 8-bit unsigned value: a general register, a timer, a byte of RAM (R5). -/
abbrev Byte := BitVec 8

/-- A 16-bit unsigned value: an instruction word, `pc`, `I`, a stack slot (R5). -/
abbrev Word := BitVec 16

/-- A 4-bit instruction field that is a number, not a register: `n` of `draw` (R74), or an ignored field (R80, R129). -/
abbrev Nibble := BitVec 4

/-- The 12-bit immediate `nnn` (R74). -/
abbrev Addr := BitVec 12

/-- A general register's number, 0 to 15, and the value of the fields `x` and `y` (R21, R72, R73). -/
abbrev Reg := Fin 16

/-- A key's number, 0 to 15 (R33). -/
abbrev Key := Fin 16

/-- `V[15]`, the register that doubles as the flag (R5 `FLAG_REG`, R22). -/
abbrev flagReg : Reg := 15

end Sys2Proof
end

