-- ==== Sys2Proof/Syntax.lean ====
section
/-! DEFINITION. The 34 instruction forms, one constructor per row of spec/opcode_table.json (spec/30_encoding.md R81), in the
table's order. Operands stand in the order `x`, `y`, immediate (R84). A field the machine ignores (the table calls it
"ignored": R80, R129, R131) is carried, so that no bit of a word is lost; no meaning reads it. -/

namespace Sys2Proof

/-- One instruction (R81). -/
inductive Instr where
  /-- 00E0, R151 -/
  | clearScreen
  /-- 00EE, R101 -/
  | ret
  /-- 1nnn, R102 -/
  | jump (nnn : Addr)
  /-- 2nnn, R103 -/
  | call (nnn : Addr)
  /-- 3xnn, R104 -/
  | skipEqImm (x : Reg) (nn : Byte)
  /-- 4xnn, R105 -/
  | skipNeqImm (x : Reg) (nn : Byte)
  /-- 5xy0, R106; the low nibble is ignored (R80) -/
  | skipEqReg (x y : Reg) (ignored : Nibble)
  /-- 6xnn, R121 -/
  | setImm (x : Reg) (nn : Byte)
  /-- 7xnn, R122 -/
  | addImm (x : Reg) (nn : Byte)
  /-- 8xy0, R123 -/
  | assign (x y : Reg)
  /-- 8xy1, R124 -/
  | or (x y : Reg)
  /-- 8xy2, R125 -/
  | and (x y : Reg)
  /-- 8xy3, R126 -/
  | xor (x y : Reg)
  /-- 8xy4, R127 -/
  | addReg (x y : Reg)
  /-- 8xy5, R128 -/
  | subReg (x y : Reg)
  /-- 8xy6, R129; the `y` field is ignored -/
  | shiftRight (x : Reg) (ignored : Nibble)
  /-- 8xy7, R130 -/
  | subRegRev (x y : Reg)
  /-- 8xyE, R131; the `y` field is ignored -/
  | shiftLeft (x : Reg) (ignored : Nibble)
  /-- 9xy0, R107; the low nibble is ignored (R80) -/
  | skipNeqReg (x y : Reg) (ignored : Nibble)
  /-- Annn, R141 -/
  | setIndex (nnn : Addr)
  /-- Bnnn, R108 -/
  | jumpOffset (nnn : Addr)
  /-- Cxnn, R132 -/
  | random (x : Reg) (nn : Byte)
  /-- Dxyn, R152 -/
  | draw (x y : Reg) (n : Nibble)
  /-- Ex9E, R161 -/
  | skipIfKey (x : Reg)
  /-- ExA1, R162 -/
  | skipIfNotKey (x : Reg)
  /-- Fx07, R163 -/
  | getDelay (x : Reg)
  /-- Fx0A, R164 -/
  | waitKey (x : Reg)
  /-- Fx15, R165 -/
  | setDelay (x : Reg)
  /-- Fx18, R166 -/
  | setSound (x : Reg)
  /-- Fx1E, R142 -/
  | addIndex (x : Reg)
  /-- Fx29, R143 -/
  | fontAddress (x : Reg)
  /-- Fx33, R144 -/
  | bcdStore (x : Reg)
  /-- Fx55, R145 -/
  | regDump (x : Reg)
  /-- Fx65, R146 -/
  | regLoad (x : Reg)
  deriving DecidableEq, Repr

end Sys2Proof
end

