-- ==== Sys2Proof/Decode.lean ====
section
/-! DEFINITION. The decoder and the encoder (spec/30_encoding.md). The decoder reads nothing but the word (R75) and rejects by
name; the encoder is written from the same table (R81). The opcode numbers and field places are those of R81 and R71: 30 of the
34 are the standard CHIP-8 assignment, PRESUMED (R85, G1; log entry 1). -/

namespace Sys2Proof

/-- Why a word is no instruction, one name for each row of R82's table, and a name for bytes that end too early. -/
inductive DecodeReject where
  /-- a word 0x0000 to 0x0FFF other than 0x00E0 and 0x00EE (R76) -/
  | unrecognisedGroup0
  /-- a word 8xy? whose low nibble is none of 0 to 7, E (R77) -/
  | unrecognisedGroup8
  /-- a word Ex?? whose low byte is neither 9E nor A1 (R78) -/
  | unrecognisedGroupE
  /-- a word Fx?? whose low byte is none of the nine of R79 -/
  | unrecognisedGroupF
  /-- fewer than two bytes: an instruction is one 16-bit word (R70) -/
  | truncated
  deriving DecidableEq, Repr

/-- `w[15:12]`, the group (R70). -/
def groupOf (w : Word) : Nibble := w.extractLsb' 12 4

/-- The field `x`, `w[11:8]` (R72). -/
def fieldX (w : Word) : Reg := (w.extractLsb' 8 4).toFin

/-- The field `y`, `w[7:4]` (R73). -/
def fieldY (w : Word) : Reg := (w.extractLsb' 4 4).toFin

/-- `w[7:4]` where the machine ignores it (R129, R131). -/
def nibbleY (w : Word) : Nibble := w.extractLsb' 4 4

/-- The field `n`, `w[3:0]` (R74); the low nibble that selects in group 8 (R77) and is ignored in groups 5 and 9 (R80). -/
def fieldN (w : Word) : Nibble := w.extractLsb' 0 4

/-- The field `nn`, `w[7:0]` (R74); the low byte that selects in groups E and F (R78, R79). -/
def fieldNN (w : Word) : Byte := w.extractLsb' 0 8

/-- The field `nnn`, `w[11:0]` (R74). -/
def fieldNNN (w : Word) : Addr := w.extractLsb' 0 12

/-- Group 0 (R76): the whole word is compared. -/
def decodeGroup0 (w : Word) : Except DecodeReject Instr :=
  if w = 0x00E0 then .ok .clearScreen
  else if w = 0x00EE then .ok .ret
  else .error .unrecognisedGroup0

/-- Group 8 (R77): the low nibble selects the form. -/
def decodeGroup8 (w : Word) : Except DecodeReject Instr :=
  match fieldN w with
  | 0x0 => .ok (.assign (fieldX w) (fieldY w))
  | 0x1 => .ok (.or (fieldX w) (fieldY w))
  | 0x2 => .ok (.and (fieldX w) (fieldY w))
  | 0x3 => .ok (.xor (fieldX w) (fieldY w))
  | 0x4 => .ok (.addReg (fieldX w) (fieldY w))
  | 0x5 => .ok (.subReg (fieldX w) (fieldY w))
  | 0x6 => .ok (.shiftRight (fieldX w) (nibbleY w))
  | 0x7 => .ok (.subRegRev (fieldX w) (fieldY w))
  | 0xE => .ok (.shiftLeft (fieldX w) (nibbleY w))
  | _ => .error .unrecognisedGroup8

/-- Group E (R78): the low byte selects the form. -/
def decodeGroupE (w : Word) : Except DecodeReject Instr :=
  match fieldNN w with
  | 0x9E => .ok (.skipIfKey (fieldX w))
  | 0xA1 => .ok (.skipIfNotKey (fieldX w))
  | _ => .error .unrecognisedGroupE

/-- Group F (R79): the low byte selects the form. -/
def decodeGroupF (w : Word) : Except DecodeReject Instr :=
  match fieldNN w with
  | 0x07 => .ok (.getDelay (fieldX w))
  | 0x0A => .ok (.waitKey (fieldX w))
  | 0x15 => .ok (.setDelay (fieldX w))
  | 0x18 => .ok (.setSound (fieldX w))
  | 0x1E => .ok (.addIndex (fieldX w))
  | 0x29 => .ok (.fontAddress (fieldX w))
  | 0x33 => .ok (.bcdStore (fieldX w))
  | 0x55 => .ok (.regDump (fieldX w))
  | 0x65 => .ok (.regLoad (fieldX w))
  | _ => .error .unrecognisedGroupF

/-- Decode (R75): total on the 65536 words. In the groups 1 to 7, 9, A to D the group alone selects the form (R75, R80). -/
def decodeWord (w : Word) : Except DecodeReject Instr :=
  match groupOf w with
  | 0x0 => decodeGroup0 w
  | 0x1 => .ok (.jump (fieldNNN w))
  | 0x2 => .ok (.call (fieldNNN w))
  | 0x3 => .ok (.skipEqImm (fieldX w) (fieldNN w))
  | 0x4 => .ok (.skipNeqImm (fieldX w) (fieldNN w))
  | 0x5 => .ok (.skipEqReg (fieldX w) (fieldY w) (fieldN w))
  | 0x6 => .ok (.setImm (fieldX w) (fieldNN w))
  | 0x7 => .ok (.addImm (fieldX w) (fieldNN w))
  | 0x8 => decodeGroup8 w
  | 0x9 => .ok (.skipNeqReg (fieldX w) (fieldY w) (fieldN w))
  | 0xA => .ok (.setIndex (fieldNNN w))
  | 0xB => .ok (.jumpOffset (fieldNNN w))
  | 0xC => .ok (.random (fieldX w) (fieldNN w))
  | 0xD => .ok (.draw (fieldX w) (fieldY w) (fieldN w))
  | 0xE => decodeGroupE w
  | _ => decodeGroupF w -- 0xF, the one group left

/-- A word from its two bytes in memory order: big-endian, the byte at the lower address is `w[15:8]` (R54). -/
def wordOfBytes (hi lo : Byte) : Word := hi ++ lo

/-- The two bytes of a word in memory order (R54). -/
def bytesOfWord (w : Word) : List Byte := [w.extractLsb' 8 8, w.extractLsb' 0 8]

/-- Decode the instruction at the head of any byte sequence, with the bytes that follow it; always two bytes (R70, R83). -/
def decodeBytes : List Byte → Except DecodeReject (Instr × List Byte)
  | hi :: lo :: rest =>
    match decodeWord (wordOfBytes hi lo) with
    | .ok i => .ok (i, rest)
    | .error e => .error e
  | _ => .error .truncated

/-- The word of format A: group, `nnn` (R71). -/
def wordA (g : Nibble) (nnn : Addr) : Word := g ++ nnn

/-- The word of formats XN and XS: group, `x`, a byte (R71). -/
def wordXB (g : Nibble) (x : Reg) (b : Byte) : Word := g ++ (BitVec.ofFin x : Nibble) ++ b

/-- The word of formats XY and XYN: group, `x`, `w[7:4]`, `w[3:0]` (R71). -/
def wordXYN (g : Nibble) (x : Reg) (y n : Nibble) : Word := g ++ (BitVec.ofFin x : Nibble) ++ y ++ n

/-- The word of an instruction, from the table of R81. -/
def encode : Instr → Word
  | .clearScreen => 0x00E0
  | .ret => 0x00EE
  | .jump nnn => wordA 0x1 nnn
  | .call nnn => wordA 0x2 nnn
  | .skipEqImm x nn => wordXB 0x3 x nn
  | .skipNeqImm x nn => wordXB 0x4 x nn
  | .skipEqReg x y ignored => wordXYN 0x5 x (BitVec.ofFin y) ignored
  | .setImm x nn => wordXB 0x6 x nn
  | .addImm x nn => wordXB 0x7 x nn
  | .assign x y => wordXYN 0x8 x (BitVec.ofFin y) 0x0
  | .or x y => wordXYN 0x8 x (BitVec.ofFin y) 0x1
  | .and x y => wordXYN 0x8 x (BitVec.ofFin y) 0x2
  | .xor x y => wordXYN 0x8 x (BitVec.ofFin y) 0x3
  | .addReg x y => wordXYN 0x8 x (BitVec.ofFin y) 0x4
  | .subReg x y => wordXYN 0x8 x (BitVec.ofFin y) 0x5
  | .shiftRight x ignored => wordXYN 0x8 x ignored 0x6
  | .subRegRev x y => wordXYN 0x8 x (BitVec.ofFin y) 0x7
  | .shiftLeft x ignored => wordXYN 0x8 x ignored 0xE
  | .skipNeqReg x y ignored => wordXYN 0x9 x (BitVec.ofFin y) ignored
  | .setIndex nnn => wordA 0xA nnn
  | .jumpOffset nnn => wordA 0xB nnn
  | .random x nn => wordXB 0xC x nn
  | .draw x y n => wordXYN 0xD x (BitVec.ofFin y) n
  | .skipIfKey x => wordXB 0xE x 0x9E
  | .skipIfNotKey x => wordXB 0xE x 0xA1
  | .getDelay x => wordXB 0xF x 0x07
  | .waitKey x => wordXB 0xF x 0x0A
  | .setDelay x => wordXB 0xF x 0x15
  | .setSound x => wordXB 0xF x 0x18
  | .addIndex x => wordXB 0xF x 0x1E
  | .fontAddress x => wordXB 0xF x 0x29
  | .bcdStore x => wordXB 0xF x 0x33
  | .regDump x => wordXB 0xF x 0x55
  | .regLoad x => wordXB 0xF x 0x65

/-- The row of R81's table that an instruction belongs to: its match and its mask. -/
def matchMask : Instr → Word × Word
  | .clearScreen => (0x00E0, 0xFFFF)
  | .ret => (0x00EE, 0xFFFF)
  | .jump _ => (0x1000, 0xF000)
  | .call _ => (0x2000, 0xF000)
  | .skipEqImm _ _ => (0x3000, 0xF000)
  | .skipNeqImm _ _ => (0x4000, 0xF000)
  | .skipEqReg _ _ _ => (0x5000, 0xF000)
  | .setImm _ _ => (0x6000, 0xF000)
  | .addImm _ _ => (0x7000, 0xF000)
  | .assign _ _ => (0x8000, 0xF00F)
  | .or _ _ => (0x8001, 0xF00F)
  | .and _ _ => (0x8002, 0xF00F)
  | .xor _ _ => (0x8003, 0xF00F)
  | .addReg _ _ => (0x8004, 0xF00F)
  | .subReg _ _ => (0x8005, 0xF00F)
  | .shiftRight _ _ => (0x8006, 0xF00F)
  | .subRegRev _ _ => (0x8007, 0xF00F)
  | .shiftLeft _ _ => (0x800E, 0xF00F)
  | .skipNeqReg _ _ _ => (0x9000, 0xF000)
  | .setIndex _ => (0xA000, 0xF000)
  | .jumpOffset _ => (0xB000, 0xF000)
  | .random _ _ => (0xC000, 0xF000)
  | .draw _ _ _ => (0xD000, 0xF000)
  | .skipIfKey _ => (0xE09E, 0xF0FF)
  | .skipIfNotKey _ => (0xE0A1, 0xF0FF)
  | .getDelay _ => (0xF007, 0xF0FF)
  | .waitKey _ => (0xF00A, 0xF0FF)
  | .setDelay _ => (0xF015, 0xF0FF)
  | .setSound _ => (0xF018, 0xF0FF)
  | .addIndex _ => (0xF01E, 0xF0FF)
  | .fontAddress _ => (0xF029, 0xF0FF)
  | .bcdStore _ => (0xF033, 0xF0FF)
  | .regDump _ => (0xF055, 0xF0FF)
  | .regLoad _ => (0xF065, 0xF0FF)

/-- The 34 rows of R81's table (match, mask), in the table's order. -/
def opcodeRows : List (Word × Word) :=
  [(0x00E0, 0xFFFF), (0x00EE, 0xFFFF), (0x1000, 0xF000), (0x2000, 0xF000), (0x3000, 0xF000), (0x4000, 0xF000),
    (0x5000, 0xF000), (0x6000, 0xF000), (0x7000, 0xF000)]
  ++ [(0x8000, 0xF00F), (0x8001, 0xF00F), (0x8002, 0xF00F), (0x8003, 0xF00F), (0x8004, 0xF00F), (0x8005, 0xF00F),
    (0x8006, 0xF00F), (0x8007, 0xF00F), (0x800E, 0xF00F)]
  ++ [(0x9000, 0xF000), (0xA000, 0xF000), (0xB000, 0xF000), (0xC000, 0xF000), (0xD000, 0xF000), (0xE09E, 0xF0FF),
    (0xE0A1, 0xF0FF)]
  ++ [(0xF007, 0xF0FF), (0xF00A, 0xF0FF), (0xF015, 0xF0FF), (0xF018, 0xF0FF), (0xF01E, 0xF0FF), (0xF029, 0xF0FF),
    (0xF033, 0xF0FF), (0xF055, 0xF0FF), (0xF065, 0xF0FF)]

/-- The instruction this decoder reads from the word whose bits are `w`, bit 0 the least significant bit of the word, bits at
and above `nbits` zero: the word is laid out as the hardware stores it (big-endian, R54) and given to `decodeBytes`. -/
def decodeTableWord (nbits w : Nat) : Option Instr :=
  match decodeBytes (bytesOfWord (BitVec.ofNat 16 (w % 2 ^ nbits))) with
  | .ok (i, _) => some i
  | .error _ => none

end Sys2Proof
end

