-- ==== Sys2Proof/Config.lean ====
section
/-! DEFINITION. The fixed parameters of spec/00_scope.md R5 and the free value of R6. -/

namespace Sys2Proof.Config

/-- `MEM_SIZE` (R5, R50): bytes of RAM, addresses 0x000 to 0xFFF. -/
def memSize : Nat := 4096

/-- `PROGRAM_BASE` (R5): the load address and the reset value of `pc`. -/
def programBase : Nat := 0x200

/-- `MAX_PROGRAM` (R5, R204): the largest program length, 4096 minus 0x200. -/
def maxProgram : Nat := 3584

/-- `TIMER_RESET` (R5, R37): the value both timers take at reset. -/
def timerReset : Byte := 60

/-- The random byte `rnd` (R34, R132, D13), "a free 8-bit input of each cycle that executes `random`, under no law":
the k-th byte drawn. It has no body, so no proof can see a value of it. Safe. Log entry 4. -/
opaque freeRandom : Nat → Byte

end Sys2Proof.Config
end

