-- ==== Sys2Proof/Machine/Memory.lean ====
section
/-! DEFINITION. The RAM (spec/20_memory.md R50): a list of cells in one canonical form. These operations are raw; whether an
address exists is checked by the instruction that uses it (R53, Ops.lean). -/

namespace Sys2Proof.Machine

/-- What an unlisted address reads as: its reset contents, the font at 0x000 to 0x04F and 0 elsewhere (R57, R200). -/
def Memory.unlisted (a : Nat) : Byte := font.getD a 0

/-- The byte at an address. -/
def Memory.get : List Host.Cell → Nat → Byte
  | [], a => Memory.unlisted a
  | (b, x) :: m, a => if a = b then x else Memory.get m a

/-- The cells without any for the address `a`. -/
def Memory.erase : List Host.Cell → Nat → List Host.Cell
  | [], _ => []
  | (b, x) :: m, a => if a = b then Memory.erase m a else (b, x) :: Memory.erase m a

/-- The cells with one more, placed before the first higher address. -/
def Memory.insert : List Host.Cell → Nat → Byte → List Host.Cell
  | [], a, x => [(a, x)]
  | (b, y) :: m, a, x => if a < b then (a, x) :: (b, y) :: m else (b, y) :: Memory.insert m a x

/-- The memory in which the byte at `a` is `x` (R52): writing what an unlisted address reads as lists nothing. -/
def Memory.set (m : List Host.Cell) (a : Nat) (x : Byte) : List Host.Cell :=
  if x = Memory.unlisted a then Memory.erase m a else Memory.insert (Memory.erase m a) a x

/-- The canonical form above a bound: addresses strictly rising, each at least `lo` and below 4096, and no entry equal to what
an unlisted address reads as. -/
def Memory.wfFrom : Nat → List Host.Cell → Bool
  | _, [] => true
  | lo, (a, x) :: m => decide (lo ≤ a) && decide (a < Config.memSize) && decide (x ≠ Memory.unlisted a) && Memory.wfFrom (a + 1) m

/-- The canonical form: equal memories are equal lists. -/
def Memory.wf (m : List Host.Cell) : Bool := Memory.wfFrom 0 m

/-- The `n` bytes from `base` upward, in address order (R56). -/
def Memory.read (m : List Host.Cell) : Nat → Nat → List Byte
  | _, 0 => []
  | base, n + 1 => Memory.get m base :: Memory.read m (base + 1) n

/-- The memory in which the bytes from `base` upward are `xs`, written in address order (R56). -/
def Memory.write (m : List Host.Cell) : Nat → List Byte → List Host.Cell
  | _, [] => m
  | base, x :: xs => Memory.write (Memory.set m base x) (base + 1) xs

end Sys2Proof.Machine
end

