-- ==== Sys2Proof/Machine/State.lean ====
section
/-! DEFINITION. The state of the machine as plain data (spec/10_state.md R20 to R41), why a step can stop (spec/60_exceptions.md
R170), and the state after reset (R37). -/

namespace Sys2Proof.Machine

/-- The pixel buffer (R29, R150): 32 rows, row 0 at the top, of 64 one-bit pixels, column 0 at the left. -/
abbrev Pixels := Vector (Vector Bool 64) 32

/-- Everything R20 lists, the key latch the core samples (R33), and two fields of the model's own (`rndCount`, `tone`). -/
structure State where
  /-- `mem` (R50): the bytes that differ from what `Memory.unlisted` says, addresses strictly rising (`Memory.wf`) -/
  mem : List Host.Cell
  /-- `V[0..15]` (R21); `V[15]` doubles as the flag (R22) -/
  v : Vector Byte 16
  /-- the index register `I` (R23) -/
  index : Word
  /-- the program counter (R24) -/
  pc : Word
  /-- `stack[0..15]` (R25) -/
  stack : Vector Word 16
  /-- the stack pointer, 0 to 16 (R26) -/
  sp : Fin 17
  /-- the delay timer `DT` (R27) -/
  dt : Byte
  /-- the sound timer `ST` (R28) -/
  st : Byte
  /-- the pixel buffer (R29) -/
  px : Pixels
  /-- the redraw flag (R30): `draw` sets it, the host clears it -/
  redraw : Bool
  /-- the key latch `key[0..15]` (R33): an input, the host is its sole writer -/
  key : Vector Bool 16
  /-- the model's own: how many random bytes have been drawn (R34, D13; log entry 4) -/
  rndCount : Nat
  /-- the model's own: the tone output of the last cycle (R35, R96; log entry 5); nothing in the core reads it -/
  tone : Bool
  deriving DecidableEq, Repr

/-- The error outcomes of a cycle, with what each carries (R170, D21). The instruction had no effect and `pc` did not move
(R95, R178). All are safe: the hardware also reports the outcome, and repeats it in every later cycle (R180), so the model
leaves out no progress. What an erring cycle does to the timers is in `Cycle.lean` (log entry 6). -/
inductive Fault where
  /-- Dispatch: the word at `pc` is unrecognised (R82, R171). Safe. -/
  | decodeError (pc w : Word)
  /-- `call` with `sp` = 16 (R103, R172). Safe. -/
  | stackOverflow (pc : Word)
  /-- `return` with `sp` = 0 (R101, R173). Safe. -/
  | stackUnderflow (pc : Word)
  /-- Fetch, `draw`, `bcd-store`, `reg-dump`, `reg-load`: an access above 0xFFF; the highest offending address (R53, R174). Safe. -/
  | addressError (pc : Word) (addr : Nat)
  /-- `skip-if-key`, `skip-if-not-key` with `V[x] > 15`; the value of `V[x]` (R161, R162, R175). Safe. -/
  | keyIndexError (pc : Word) (value : Byte)
  deriving DecidableEq, Repr

/-- Why the model has no meaning for an instruction. -/
inductive Refusal where
  /-- An instruction the model leaves out, by its mnemonic: raised by nothing, since every instruction has its meaning. Safe. -/
  | notModelled (mnemonic : String)
  deriving DecidableEq, Repr

/-- What an instruction or a step answers. -/
abbrev Result := Host.Outcome State Fault Refusal

/-- The machine after `Reset()` (R37, R200). Memory lists nothing: an unlisted byte is the font's or 0. The key latch, which
reset does not write, is taken as all up (R33; log entry 3); the model's own fields are 0 (log entries 4 and 5). -/
def State.reset : State where
  mem := []
  v := Vector.replicate 16 0
  index := 0
  pc := BitVec.ofNat 16 Config.programBase
  stack := Vector.replicate 16 0
  sp := 0
  dt := Config.timerReset
  st := Config.timerReset
  px := Vector.replicate 32 (Vector.replicate 64 false)
  redraw := false
  key := Vector.replicate 16 false
  rndCount := 0
  tone := false

end Sys2Proof.Machine
end

