-- ==== Sys2Proof/Machine/Ops.lean ====
section
/-! DEFINITION. The named operations over the state that the instructions share (spec/00_scope.md R8), raising an error outcome
(spec/40_cycle.md R95) and the timer tick (R96). -/

namespace Sys2Proof.Machine

/-- `V[r]` (R8, R21). -/
def readReg (s : State) (r : Reg) : Byte := s.v[r.val]

/-- `V[r] <- b` (R8, R21). -/
def writeReg (s : State) (r : Reg) (b : Byte) : State := { s with v := s.v.set r.val b }

/-- `I <- a` (R8, R23). -/
def writeIndex (s : State) (a : Word) : State := { s with index := a }

/-- `pc <- target` (R8, R24). -/
def writePc (s : State) (target : Word) : State := { s with pc := target }

/-- `pc <- (pc + 2) mod 65536` (R24). -/
def advance (s : State) : State := writePc s (s.pc + 2)

/-- `pc <- (pc + 4) mod 65536` if the condition holds, else `pc + 2` (R24, R100). -/
def skipIf (cond : Bool) (s : State) : State := if cond then writePc s (s.pc + 4) else advance s

/-- Raising an error outcome: none of the instruction's writes is performed and the outcome is `f` (R95, R178). Nothing is
saved, no mode changes and control goes nowhere; there is no handler and so no return from one (R178, R180). -/
def raise (f : Fault) : Result := .fault f

/-- Some byte of the `n` bytes from `base` upward lies above 0xFFF (R53); no byte does where `n` is 0 (R152). -/
def outOfRange (base n : Nat) : Bool := decide (0 < n) && decide (0xFFF < base + n - 1)

/-- The check every instruction that accesses memory makes before it changes anything (R53, D27): `AddressError` with the highest
address it would touch, or else what the instruction does. -/
def checkSpan (s : State) (base n : Nat) (r : Result) : Result :=
  if outOfRange base n then raise (.addressError s.pc (base + n - 1)) else r

/-- `MemRead(base + k, 1)` for `k` from 0 to `n - 1` (R51, R56). -/
def readBytes (s : State) (base n : Nat) : List Byte := Memory.read s.mem base n

/-- `MemWrite(base + k, 1, ·)` of each byte in ascending address order (R52, R56). -/
def writeBytes (s : State) (base : Nat) (xs : List Byte) : State := { s with mem := Memory.write s.mem base xs }

/-- `V[0]` to `V[x]`, in order (R145). -/
def regsUpTo (s : State) (x : Reg) : List Byte := s.v.toList.take (x.val + 1)

/-- The registers with `bs` written to register `k` and those that follow it; a number above 15 names no register. -/
def setRegsFrom (v : Vector Byte 16) : Nat → List Byte → Vector Byte 16
  | _, [] => v
  | k, b :: bs => setRegsFrom (v.setIfInBounds k b) (k + 1) bs

/-- `V[k] <- bs[k]` for every `k`, ascending (R146). -/
def writeRegs (s : State) (bs : List Byte) : State := { s with v := setRegsFrom s.v 0 bs }

/-- `stack[sp] <- pc`, `sp <- sp + 1` (R103); none where `sp` = 16. -/
def pushPc (s : State) : Option State :=
  if h : s.sp.val < 16 then
    some { s with stack := s.stack.set s.sp.val s.pc, sp := ⟨s.sp.val + 1, by omega⟩ }
  else none

/-- `sp <- sp - 1`, and the slot it then names, which keeps its value (R25, R101, D16); none where `sp` = 0. -/
def popSlot (s : State) : Option (Word × State) :=
  if h : 0 < s.sp.val then
    some (s.stack[s.sp.val - 1], { s with sp := ⟨s.sp.val - 1, by omega⟩ })
  else none

/-- A pixel, column `X`, row `Y` (R8, R29). -/
def getPixel (p : Pixels) (X : Fin 64) (Y : Fin 32) : Bool := p[Y.val][X.val]

/-- `px(X, Y) <- px(X, Y) ^ 1` (R152). -/
def flipPixel (p : Pixels) (X : Fin 64) (Y : Fin 32) : Pixels :=
  p.set Y.val (p[Y.val].set X.val (!p[Y.val][X.val]))

/-- A timer one tick later: "at 0 it stays 0" (R96). -/
def countDown (t : Byte) : Byte := if t = 0 then 0 else t - 1

/-- The timer tick, performed in every cycle (R96): both timers count down, and the tone output of the cycle is 1 exactly when
the tick finds `ST` = 1. -/
def timerTick (s : State) : State :=
  { s with dt := countDown s.dt, st := countDown s.st, tone := decide (s.st = 1) }

end Sys2Proof.Machine
end

