-- ==== Sys2Proof/Machine/Flags.lean ====
section
/-! DEFINITION. The values the six flag-writing instructions write to `V[15]` (spec/10_state.md R22) and the order of the two
writes (spec/42_arithmetic_logic.md R133). -/

namespace Sys2Proof.Machine

/-- A flag is the value 0 or 1 of a whole byte (R22). -/
def flagByte (b : Bool) : Byte := if b then 1 else 0

/-- `add-reg`: 1 if the natural sum exceeds 255 (R127). -/
def carryFlag (a b : Byte) : Byte := flagByte (decide (255 < a.toNat + b.toNat))

/-- The subtractions, minuend `a`, subtrahend `b`: 0 if `b > a`, else 1, not-borrow (R120, R128, R130). -/
def notBorrowFlag (a b : Byte) : Byte := flagByte (!decide (a.toNat < b.toNat))

/-- `shift-right`: the bit shifted out, bit 0 (R129). -/
def lowBitFlag (a : Byte) : Byte := flagByte (a.getLsbD 0)

/-- `shift-left`: the bit shifted out, bit 7 (R131). -/
def highBitFlag (a : Byte) : Byte := flagByte (a.getLsbD 7)

/-- `V[x] <- result` first and `V[15] <- flag` last (R133, D6). -/
def writeResultThenFlag (s : State) (x : Reg) (result flag : Byte) : State :=
  writeReg (writeReg s x result) flagReg flag

end Sys2Proof.Machine
end

