-- ==== Sys2Proof/Machine/Operands.lean ====
section
/-! DEFINITION. How an instruction's fields and registers become the values and places it works on: immediates
(spec/30_encoding.md R74), effective addresses (spec/43_memory_transfer.md R140), glyphs, decimal digits, sprite pixels
(spec/44_graphics.md R150, R152) and keys (spec/45_timer_input.md R160, R164). -/

namespace Sys2Proof.Machine

/-- `zext_16(nnn)` (R8, R74). -/
def zextAddr (nnn : Addr) : Word := nnn.setWidth 16

/-- `zext_16(V[r])` (R8). -/
def zextReg (s : State) (r : Reg) : Word := (readReg s r).setWidth 16

/-- The effective address of byte 0, the natural number `I` (R140); byte `k` is at `I + k`, not reduced. -/
def indexAddr (s : State) : Nat := s.index.toNat

/-- `zext_16(V[x]) * 5`, the address of a glyph (R143); the whole byte is multiplied. -/
def glyphAddr (b : Byte) : Word := b.setWidth 16 * 5

/-- The three decimal digits, hundreds first (R144). -/
def bcdDigits (b : Byte) : List Byte :=
  [BitVec.ofNat 8 (b.toNat / 100), BitVec.ofNat 8 (b.toNat / 10 % 10), BitVec.ofNat 8 (b.toNat % 10)]

/-- `X <- (vx + c) mod 64` (R150, R152, D8). -/
def spriteCol (vx : Byte) (c : Nat) : Fin 64 := Fin.ofNat 64 (vx.toNat + c)

/-- `Y <- (vy + r) mod 32` (R150, R152, D8). -/
def spriteRow (vy : Byte) (r : Nat) : Fin 32 := Fin.ofNat 32 (vy.toNat + r)

/-- The columns `c` of a sprite byte whose bit is set, left to right; bit 7 is the leftmost pixel (R152, D9). -/
def setColumns (b : Byte) : List Nat := [0, 1, 2, 3, 4, 5, 6, 7].filter fun c => b.getLsbD (7 - c)

/-- The pixels under the set bits of the sprite bytes from row `r` on, in R152's order: rows downward, columns rightward. -/
def spritePoints (vx vy : Byte) : Nat → List Byte → List (Fin 64 × Fin 32)
  | _, [] => []
  | r, b :: bs => (setColumns b).map (fun c => (spriteCol vx c, spriteRow vy r)) ++ spritePoints vx vy (r + 1) bs

/-- `key[k]` (R33): the latch as sampled in this cycle (R160). -/
def keyDown (s : State) (k : Key) : Bool := s.key[k.val]

/-- The number of the key a register names, if it is 0 to 15; it is not masked (R161, D5). -/
def keyOfReg (s : State) (x : Reg) : Option Key :=
  if h : (readReg s x).toNat < 16 then some ⟨(readReg s x).toNat, h⟩ else none

/-- The least key that is down, if any is (R164). -/
def lowestKey (s : State) : Option Key := (List.finRange 16).find? (keyDown s)

end Sys2Proof.Machine
end

