-- ==== Sys2Proof/Machine/ArithmeticLogic.lean ====
section
/-! DEFINITION. The arithmetic and logic instructions (spec/42_arithmetic_logic.md R120 to R133). Arithmetic on `Byte` wraps
modulo 256 (R120). Operands are read from the state before any write (spec/40_cycle.md R93). -/

namespace Sys2Proof.Machine

/-- `set-imm` (R121). -/
def execSetImm (x : Reg) (nn : Byte) (s : State) : Result := .next (advance (writeReg s x nn))

/-- `add-imm` (R122): no flag. -/
def execAddImm (x : Reg) (nn : Byte) (s : State) : Result := .next (advance (writeReg s x (readReg s x + nn)))

/-- `assign` (R123). -/
def execAssign (x y : Reg) (s : State) : Result := .next (advance (writeReg s x (readReg s y)))

/-- `or` (R124): no flag. -/
def execOr (x y : Reg) (s : State) : Result := .next (advance (writeReg s x (readReg s x ||| readReg s y)))

/-- `and` (R125): no flag. -/
def execAnd (x y : Reg) (s : State) : Result := .next (advance (writeReg s x (readReg s x &&& readReg s y)))

/-- `xor` (R126): no flag. -/
def execXor (x y : Reg) (s : State) : Result := .next (advance (writeReg s x (readReg s x ^^^ readReg s y)))

/-- `add-reg` (R127): carry-out in `V[15]`. -/
def execAddReg (x y : Reg) (s : State) : Result :=
  .next (advance (writeResultThenFlag s x (readReg s x + readReg s y) (carryFlag (readReg s x) (readReg s y))))

/-- `sub-reg` (R128): `V[x] - V[y]`, not-borrow in `V[15]`. -/
def execSubReg (x y : Reg) (s : State) : Result :=
  .next (advance (writeResultThenFlag s x (readReg s x - readReg s y) (notBorrowFlag (readReg s x) (readReg s y))))

/-- `shift-right` (R129): `V[x]` by one, bit 0 in `V[15]`; the `y` field is ignored. -/
def execShiftRight (x : Reg) (s : State) : Result :=
  .next (advance (writeResultThenFlag s x (readReg s x >>> 1) (lowBitFlag (readReg s x))))

/-- `sub-reg-rev` (R130): `V[y] - V[x]`, not-borrow in `V[15]`. -/
def execSubRegRev (x y : Reg) (s : State) : Result :=
  .next (advance (writeResultThenFlag s x (readReg s y - readReg s x) (notBorrowFlag (readReg s y) (readReg s x))))

/-- `shift-left` (R131): `V[x]` by one, bit 7 in `V[15]`; the `y` field is ignored. -/
def execShiftLeft (x : Reg) (s : State) : Result :=
  .next (advance (writeResultThenFlag s x (readReg s x <<< 1) (highBitFlag (readReg s x))))

/-- The next random byte and the state in which it has been drawn (R34, R132, D13; log entry 4). -/
def drawRandom (s : State) : Byte × State := (Config.freeRandom s.rndCount, { s with rndCount := s.rndCount + 1 })

/-- `random` (R132): a free byte, masked; a fresh one at each execution. -/
def execRandom (x : Reg) (nn : Byte) (s : State) : Result :=
  .next (advance (writeReg (drawRandom s).2 x ((drawRandom s).1 &&& nn)))

end Sys2Proof.Machine
end

