-- ==== Sys2Proof/Machine/ControlFlow.lean ====
section
/-! DEFINITION. The control-flow instructions (spec/41_control_flow.md R100 to R108). -/

namespace Sys2Proof.Machine

/-- `return` (R101): pop, then `pc` is the popped address plus 2; `StackUnderflow` where `sp` = 0. -/
def execRet (s : State) : Result :=
  match popSlot s with
  | some (slot, t) => .next (writePc t (slot + 2))
  | none => raise (.stackUnderflow s.pc)

/-- `jump` (R102). -/
def execJump (nnn : Addr) (s : State) : Result := .next (writePc s (zextAddr nnn))

/-- `call` (R103): push the address of the `call` itself, then jump; `StackOverflow` where `sp` = 16. -/
def execCall (nnn : Addr) (s : State) : Result :=
  match pushPc s with
  | some t => .next (writePc t (zextAddr nnn))
  | none => raise (.stackOverflow s.pc)

/-- `skip-eq-imm` (R104). -/
def execSkipEqImm (x : Reg) (nn : Byte) (s : State) : Result := .next (skipIf (readReg s x == nn) s)

/-- `skip-neq-imm` (R105). -/
def execSkipNeqImm (x : Reg) (nn : Byte) (s : State) : Result := .next (skipIf (readReg s x != nn) s)

/-- `skip-eq-reg` (R106). -/
def execSkipEqReg (x y : Reg) (s : State) : Result := .next (skipIf (readReg s x == readReg s y) s)

/-- `skip-neq-reg` (R107). -/
def execSkipNeqReg (x y : Reg) (s : State) : Result := .next (skipIf (readReg s x != readReg s y) s)

/-- `jump-offset` (R108): the register is always `V[0]`, the sum is 16 bits wide. -/
def execJumpOffset (nnn : Addr) (s : State) : Result := .next (writePc s (zextReg s 0 + zextAddr nnn))

end Sys2Proof.Machine
end

