-- ==== Sys2Proof/Machine/Graphics.lean ====
section
/-! DEFINITION. The graphics instructions (spec/44_graphics.md R150 to R153). -/

namespace Sys2Proof.Machine

/-- A pixel buffer of which every pixel is 0 (R151). -/
def blankScreen : Pixels := Vector.replicate 32 (Vector.replicate 64 false)

/-- `clear-screen` (R151): `redraw` is not written (D19). -/
def execClearScreen (s : State) : Result := .next (advance { s with px := blankScreen })

/-- One set bit of a sprite (R152): a pixel that is 1 is a collision; the pixel flips. -/
def drawPoint (acc : Pixels × Bool) (point : Fin 64 × Fin 32) : Pixels × Bool :=
  (flipPixel acc.1 point.1 point.2, acc.2 || getPixel acc.1 point.1 point.2)

/-- All the set bits of a sprite in order, from a clear collision bit (R152). -/
def drawPoints (p : Pixels) (points : List (Fin 64 × Fin 32)) : Pixels × Bool := points.foldl drawPoint (p, false)

/-- The points a `draw` covers (R152): `n` bytes from `I`, at (`V[x]`, `V[y]`), all read before anything is written (D10). -/
def drawnPoints (x y : Reg) (n : Nibble) (s : State) : List (Fin 64 × Fin 32) :=
  spritePoints (readReg s x) (readReg s y) 0 (readBytes s (indexAddr s) n.toNat)

/-- The pixels, the collision bit in `V[15]` and `redraw` as a draw leaves them (R152). -/
def writeDrawing (s : State) (drawing : Pixels × Bool) : State :=
  writeReg { s with px := drawing.1, redraw := true } flagReg (flagByte drawing.2)

/-- `draw` (R152). -/
def execDraw (x y : Reg) (n : Nibble) (s : State) : Result :=
  checkSpan s (indexAddr s) n.toNat (.next (advance (writeDrawing s (drawPoints s.px (drawnPoints x y n s)))))

end Sys2Proof.Machine
end

