-- ==== Sys2Proof/Machine/MemoryTransfer.lean ====
section
/-! DEFINITION. The index-register and memory-transfer instructions (spec/43_memory_transfer.md R140 to R146). Every address is
checked before anything changes (spec/20_memory.md R53, D27). -/

namespace Sys2Proof.Machine

/-- `set-index` (R141). -/
def execSetIndex (nnn : Addr) (s : State) : Result := .next (advance (writeIndex s (zextAddr nnn)))

/-- `add-index` (R142): modulo 65536, no flag, no range check. -/
def execAddIndex (x : Reg) (s : State) : Result := .next (advance (writeIndex s (s.index + zextReg s x)))

/-- `font-address` (R143). -/
def execFontAddress (x : Reg) (s : State) : Result := .next (advance (writeIndex s (glyphAddr (readReg s x))))

/-- `bcd-store` (R144): three digits at `I`, `I + 1`, `I + 2`; `I` is unchanged. -/
def execBcdStore (x : Reg) (s : State) : Result :=
  checkSpan s (indexAddr s) 3 (.next (advance (writeBytes s (indexAddr s) (bcdDigits (readReg s x)))))

/-- `I <- (I + x + 1) mod 65536`: the field `x`, not the register's value (R145, R146, D7). -/
def bumpIndex (s : State) (x : Reg) : State := writeIndex s (s.index + BitVec.ofNat 16 (x.val + 1))

/-- `reg-dump` (R145): `V[0]` to `V[x]` to memory from `I`, then `I` past them. -/
def execRegDump (x : Reg) (s : State) : Result :=
  checkSpan s (indexAddr s) (x.val + 1)
    (.next (advance (bumpIndex (writeBytes s (indexAddr s) (regsUpTo s x)) x)))

/-- `reg-load` (R146): `V[0]` to `V[x]` from memory at `I`, then `I` past them. -/
def execRegLoad (x : Reg) (s : State) : Result :=
  checkSpan s (indexAddr s) (x.val + 1)
    (.next (advance (bumpIndex (writeRegs s (readBytes s (indexAddr s) (x.val + 1))) x)))

end Sys2Proof.Machine
end

