-- ==== Sys2Proof/Machine/TimerInput.lean ====
section
/-! DEFINITION. The timer and key-input instructions (spec/45_timer_input.md R160 to R166). The timer tick of the same cycle
comes after them (spec/40_cycle.md R96) and is not part of these meanings. -/

namespace Sys2Proof.Machine

/-- The two key skips (R161, R162): skip where the named key's state is `wanted`; `KeyIndexError` where `V[x] > 15`. -/
def skipOnKey (wanted : Bool) (x : Reg) (s : State) : Result :=
  match keyOfReg s x with
  | some k => .next (skipIf (keyDown s k == wanted) s)
  | none => raise (.keyIndexError s.pc (readReg s x))

/-- `skip-if-key` (R161). -/
def execSkipIfKey (x : Reg) (s : State) : Result := skipOnKey true x s

/-- `skip-if-not-key` (R162). -/
def execSkipIfNotKey (x : Reg) (s : State) : Result := skipOnKey false x s

/-- `get-delay` (R163): the value before this cycle's tick. -/
def execGetDelay (x : Reg) (s : State) : Result := .next (advance (writeReg s x s.dt))

/-- `wait-key` (R164): the least key that is down; while none is, nothing is written and `pc` stays, an `Ok` cycle. -/
def execWaitKey (x : Reg) (s : State) : Result :=
  match lowestKey s with
  | some k => .next (advance (writeReg s x (BitVec.ofNat 8 k.val)))
  | none => .next s

/-- `set-delay` (R165). -/
def execSetDelay (x : Reg) (s : State) : Result := .next (advance { s with dt := readReg s x })

/-- `set-sound` (R166). -/
def execSetSound (x : Reg) (s : State) : Result := .next (advance { s with st := readReg s x })

end Sys2Proof.Machine
end

