-- ==== Sys2Proof/Machine/Dispatch.lean ====
section
/-! DEFINITION. Execute (spec/40_cycle.md R93): one arm per instruction form, in the order of spec/opcode_table.json. -/

namespace Sys2Proof.Machine

/-- What a decoded instruction does to the state, before the timer tick (R92, R93, R94). -/
def exec (i : Instr) (s : State) : Host.Outcome State Fault Refusal :=
  match i with
  | .clearScreen => Sys2Proof.Machine.execClearScreen s
  | .ret => Sys2Proof.Machine.execRet s
  | .jump nnn => Sys2Proof.Machine.execJump nnn s
  | .call nnn => Sys2Proof.Machine.execCall nnn s
  | .skipEqImm x nn => Sys2Proof.Machine.execSkipEqImm x nn s
  | .skipNeqImm x nn => Sys2Proof.Machine.execSkipNeqImm x nn s
  | .skipEqReg x y _ => Sys2Proof.Machine.execSkipEqReg x y s
  | .setImm x nn => Sys2Proof.Machine.execSetImm x nn s
  | .addImm x nn => Sys2Proof.Machine.execAddImm x nn s
  | .assign x y => Sys2Proof.Machine.execAssign x y s
  | .or x y => Sys2Proof.Machine.execOr x y s
  | .and x y => Sys2Proof.Machine.execAnd x y s
  | .xor x y => Sys2Proof.Machine.execXor x y s
  | .addReg x y => Sys2Proof.Machine.execAddReg x y s
  | .subReg x y => Sys2Proof.Machine.execSubReg x y s
  | .shiftRight x _ => Sys2Proof.Machine.execShiftRight x s
  | .subRegRev x y => Sys2Proof.Machine.execSubRegRev x y s
  | .shiftLeft x _ => Sys2Proof.Machine.execShiftLeft x s
  | .skipNeqReg x y _ => Sys2Proof.Machine.execSkipNeqReg x y s
  | .setIndex nnn => Sys2Proof.Machine.execSetIndex nnn s
  | .jumpOffset nnn => Sys2Proof.Machine.execJumpOffset nnn s
  | .random x nn => Sys2Proof.Machine.execRandom x nn s
  | .draw x y n => Sys2Proof.Machine.execDraw x y n s
  | .skipIfKey x => Sys2Proof.Machine.execSkipIfKey x s
  | .skipIfNotKey x => Sys2Proof.Machine.execSkipIfNotKey x s
  | .getDelay x => Sys2Proof.Machine.execGetDelay x s
  | .waitKey x => Sys2Proof.Machine.execWaitKey x s
  | .setDelay x => Sys2Proof.Machine.execSetDelay x s
  | .setSound x => Sys2Proof.Machine.execSetSound x s
  | .addIndex x => Sys2Proof.Machine.execAddIndex x s
  | .fontAddress x => Sys2Proof.Machine.execFontAddress x s
  | .bcdStore x => Sys2Proof.Machine.execBcdStore x s
  | .regDump x => Sys2Proof.Machine.execRegDump x s
  | .regLoad x => Sys2Proof.Machine.execRegLoad x s

end Sys2Proof.Machine
end

