-- ==== Sys2Proof/Machine/Cycle.lean ====
section
/-! DEFINITION. The cycle (spec/40_cycle.md R90 to R96): fetch, dispatch, execute, timer tick, and the outcome and the state it
leaves, of a cycle that errs as well. -/

namespace Sys2Proof.Machine

/-- The word at `pc`, big-endian (R54, R91). -/
def fetchedWord (s : State) : Word := wordOfBytes (Memory.get s.mem s.pc.toNat) (Memory.get s.mem (s.pc.toNat + 1))

/-- Dispatch and execute (R92, R93): an unrecognised word raises `DecodeError` (R171). -/
def dispatchWord (w : Word) (s : State) : Result :=
  match decodeWord w with
  | .ok i => exec i s
  | .error _ => raise (.decodeError s.pc w)

/-- Steps 1 to 3 of the cycle (R90, R177): fetch, which raises `AddressError` where `pc > 0xFFE` (R91), dispatch, execute. -/
def runInstruction (s : State) : Result := checkSpan s s.pc.toNat 2 (dispatchWord (fetchedWord s) s)

/-- A cycle's outcome (R170). -/
inductive CycleOutcome where
  /-- no step raised (R94) -/
  | ok
  /-- an error outcome (R95) -/
  | error (f : Fault)
  /-- the model has no meaning for the instruction: no cycle's outcome, since every instruction has its meaning -/
  | leftOut (r : Refusal)
  deriving DecidableEq, Repr

/-- What a cycle gives back: the state it leaves, whose field `tone` is the tone bit, and its outcome (R90). -/
structure CycleReport where
  after : State
  outcome : CycleOutcome
  deriving DecidableEq, Repr

/-- Step 4 of the cycle, always performed (R90, R95, R96): after an instruction that completed the tick sees its writes, after one
that raised the tick is all that happens (R178). -/
def finishCycle (s : State) : Result → CycleReport
  | .next t => { after := timerTick t, outcome := .ok }
  | .fault f => { after := timerTick s, outcome := .error f }
  | .refused r => { after := timerTick s, outcome := .leftOut r }

/-- `Cycle()` (R90). -/
def cycle (s : State) : CycleReport := finishCycle s (runInstruction s)

/-- A report as the outcome of one step: "a model should treat every non-`Ok` outcome as a fault that ends the run" (R180). -/
def stepOfReport : CycleReport → Result
  | { after := t, outcome := .ok } => .next t
  | { after := _, outcome := .error f } => .fault f
  | { after := _, outcome := .leftOut r } => .refused r

/-- "The program has ended" (R207, D28; log entry 9): `pc` holds the address of a `jump` whose target is that same address. There
is no halt; the machine goes on cycling. -/
def programEnded (s : State) : Bool :=
  !outOfRange s.pc.toNat 2 &&
    match decodeWord (fetchedWord s) with
    | .ok i => decide (i = .jump (s.pc.setWidth 12))
    | .error _ => false

/-- The state with the word `w` stored where the next cycle fetches, big-endian (R54); the same state where `pc` names no two
bytes of RAM. -/
def placeWord (s : State) (w : Word) : State :=
  if outOfRange s.pc.toNat 2 then s else writeBytes s s.pc.toNat (bytesOfWord w)

end Sys2Proof.Machine
end

