-- ==== Sys2Proof/Machine/Step.lean ====
section
/-! DEFINITION. One step is one cycle (spec/40_cycle.md R90), and the state the host's check of the opcode table runs from. -/

namespace Sys2Proof.Machine

/-- One cycle: the state after it, or the fault that an error outcome is (R90, R180). -/
def step (s : State) : Host.Outcome State Fault Refusal := stepOfReport (cycle s)

/-- The state with the instruction whose bits are `w`, zero at and above `nbits`, stored at `pc`. -/
def State.withFetchWord (s : State) (nbits w : Nat) : State := placeWord s (BitVec.ofNat 16 (w % 2 ^ nbits))

end Sys2Proof.Machine
end

