-- ==== Sys2Proof/Machine/HostOps.lean ====
section
/-! DEFINITION. What the host can do, between cycles only (spec/10_state.md R32, R33, R35, R36; spec/70_reset_and_hazards.md R200
to R206), and what it can read. -/

namespace Sys2Proof.Machine

/-- `Reset()` (R200): every piece of core state as in `State.reset`. The key latch is not written (R33), and the random draws go
on, "seeds any randomness source" having no modelled effect (R34, R200; log entry 4). -/
def hostReset (s : State) : State := { State.reset with key := s.key, rndCount := s.rndCount }

/-- What `Load` returns (R181, R204). -/
inductive LoadOutcome where
  | ok
  | loadError
  deriving DecidableEq, Repr

/-- `Load(bytes)` (R204, R205): reset first, always; more than 3584 bytes are refused and the state is left freshly reset. -/
def hostLoad (bytes : List Byte) (s : State) : State × LoadOutcome :=
  if Config.maxProgram < bytes.length then (hostReset s, .loadError)
  else (writeBytes (hostReset s) Config.programBase bytes, .ok)

/-- `setKey(k, pressed)` (R33); there is no move for an index above 15 (D24). -/
def hostSetKey (k : Key) (pressed : Bool) (s : State) : State := { s with key := s.key.set k.val pressed }

/-- The host clears `redraw` after consuming the pixel buffer (R30, R35). -/
def hostClearRedraw (s : State) : State := { s with redraw := false }

/-- The parameter `PIXEL_LAYOUT` at its default (R6, D23): PRESUMED, the spec takes it from general knowledge (G5; log entry 10). -/
def pixelLayout (X : Fin 64) (Y : Fin 32) : Nat := Y.val * 64 + X.val

/-- The host's read-only view of the 2048 pixels (R29, R35), row by row (D23; log entry 10). -/
def pixelView (s : State) : List Bool := s.px.toList.flatMap Vector.toList

/-- The host's moves (R32, R33, R35, R36). -/
inductive HostMove where
  | reset
  | load (bytes : List Byte)
  | setKey (k : Key) (pressed : Bool)
  | clearRedraw
  | cycle
  deriving DecidableEq, Repr

/-- The state a move leaves. The host may go on after any outcome (R170, R180). -/
def hostMove (s : State) : HostMove → State
  | .reset => hostReset s
  | .load bytes => (hostLoad bytes s).1
  | .setKey k pressed => hostSetKey k pressed s
  | .clearRedraw => hostClearRedraw s
  | .cycle => (cycle s).after

end Sys2Proof.Machine
end

