-- ==== Sys2Proof/Safety.lean ====
section
/-! DEFINITION. The terms in which claims are stated: what an instruction may write (spec/10_state.md R40), what a cycle executes
(spec/40_cycle.md R90), runs of cycles and of host moves, and the machine's invariant. -/

namespace Sys2Proof.Machine

/-- What an instruction may write, apart from `pc`: registers, stack slots and bytes of RAM by number, the rest by name. The key
latch and the tone output are not here: no instruction writes them (R33, R35). -/
structure Writes where
  regs : List Reg := []
  index : Bool := false
  slots : List (Fin 16) := []
  sp : Bool := false
  bytes : List Nat := []
  dt : Bool := false
  st : Bool := false
  px : Bool := false
  redraw : Bool := false
  rnd : Bool := false

/-- From `s` to `t` nothing but `pc` and what `w` names has changed: every other register, stack slot and BYTE OF RAM reads as
before, and every field `w` does not name is the same (R12: "any state not written is unchanged"). -/
def Frame (w : Writes) (s t : State) : Prop :=
  (∀ r, r ∉ w.regs → readReg t r = readReg s r) ∧
  (w.index = false → t.index = s.index) ∧
  (∀ k : Fin 16, k ∉ w.slots → t.stack[k.val] = s.stack[k.val]) ∧
  (w.sp = false → t.sp = s.sp) ∧
  (∀ a, a ∉ w.bytes → Memory.get t.mem a = Memory.get s.mem a) ∧
  (w.dt = false → t.dt = s.dt) ∧
  (w.st = false → t.st = s.st) ∧
  (w.px = false → t.px = s.px) ∧
  (w.redraw = false → t.redraw = s.redraw) ∧
  (w.rnd = false → t.rndCount = s.rndCount) ∧
  t.key = s.key ∧ t.tone = s.tone

/-- `pc` has moved on by `k` bytes, modulo 65536 (R24). -/
def PcPlus (k : Nat) (s t : State) : Prop := t.pc.toNat = (s.pc.toNat + k) % 65536

/-- The slot `sp` names, where one is free (R26). -/
def topSlots (s : State) : List (Fin 16) := if h : s.sp.val < 16 then [⟨s.sp.val, h⟩] else []

/-- The registers `V[0]` to `V[x]` (R145, R146). -/
def regsTo (x : Reg) : List Reg := (List.finRange 16).filter fun r => decide (r.val ≤ x.val)

/-- The W entries of R40's access matrix, and those of `V[15]` for the six flag-writing instructions (R22). -/
def writesOf (i : Instr) (s : State) : Writes :=
  match i with
  | .clearScreen => { px := true }
  | .ret => { sp := true }
  | .call _ => { slots := topSlots s, sp := true }
  | .jump _ | .jumpOffset _ => {}
  | .skipEqImm _ _ | .skipNeqImm _ _ | .skipEqReg _ _ _ | .skipNeqReg _ _ _ | .skipIfKey _ | .skipIfNotKey _ => {}
  | .setImm x _ | .addImm x _ | .assign x _ | .or x _ | .and x _ | .xor x _ | .getDelay x | .waitKey x => { regs := [x] }
  | .addReg x _ | .subReg x _ | .subRegRev x _ | .shiftRight x _ | .shiftLeft x _ => { regs := [x, flagReg] }
  | .setIndex _ | .addIndex _ | .fontAddress _ => { index := true }
  | .random x _ => { regs := [x], rnd := true }
  | .draw _ _ _ => { regs := [flagReg], px := true, redraw := true }
  | .setDelay _ => { dt := true }
  | .setSound _ => { st := true }
  | .bcdStore _ => { bytes := List.range' (indexAddr s) 3 }
  | .regDump x => { index := true, bytes := List.range' (indexAddr s) (x.val + 1) }
  | .regLoad x => { index := true, regs := regsTo x }

/-- The cycle in state `s` fetches, and executes, the instruction `i` (R91, R92). -/
def Executes (s : State) (i : Instr) : Prop := s.pc.toNat ≤ 0xFFE ∧ decodeWord (fetchedWord s) = .ok i

/-- The state after `k` cycles, whatever their outcomes (R90, R180). -/
def afterCycles : Nat → State → State
  | 0, s => s
  | k + 1, s => afterCycles k (cycle s).after

/-- The state after a sequence of host moves (R32, R36). -/
def afterMoves (s : State) (moves : List HostMove) : State := moves.foldl hostMove s

/-- The machine's invariant: memory has its canonical form; every stack slot holds an address at which a `call` can have been
fetched, at most 0xFFE (R101); and `pc` is at most 0x10FE, the largest value `jump-offset` gives (R108), so that no addition to it
wraps (R24). -/
def StateInvariant (s : State) : Prop :=
  Memory.wf s.mem = true ∧ (∀ k : Fin 16, s.stack[k.val].toNat ≤ 0xFFE) ∧ s.pc.toNat ≤ 0x10FE

/-- A pixel lies under a set bit of the `n`-row sprite at `I`, drawn at (`V[x]`, `V[y]`): row `r` is the byte at `I + r`, column
`c` its bit `7 - c`, and both coordinates wrap (R150, R152). -/
def Covered (x y : Reg) (n : Nibble) (s : State) (X : Fin 64) (Y : Fin 32) : Prop :=
  ∃ r c : Nat, r < n.toNat ∧ c < 8 ∧ (Memory.get s.mem (indexAddr s + r)).getLsbD (7 - c) = true ∧
    X.val = ((readReg s x).toNat + c) % 64 ∧ Y.val = ((readReg s y).toNat + r) % 32

/-- The state with the sound timer, `redraw` and the tone blanked out: what is left is all that an instruction can depend on,
since "no instruction reads" those (R28, R30, R35). -/
def withoutOutputs (s : State) : State := { s with st := 0, redraw := false, tone := false }

/-- The three instructions that read the key latch (R33). -/
def readsKeys : Instr → Bool
  | .skipIfKey _ | .skipIfNotKey _ | .waitKey _ => true
  | _ => false

end Sys2Proof.Machine
end

