-- ==== Sys2Proof/Certificates/Slice0/Obligations.lean ====
section
/-! DEFINITION. The statements for the provers, in the terms of Safety.lean. Registers, addresses and `pc` are compared as natural
numbers, as the rules write them (spec/00_scope.md R8). Each docstring names the rules and, where a clause rests on a decision of
the spec or on its general knowledge, the decision and the log entry. -/

open Sys2Proof Sys2Proof.Machine

/-! ### Encoding and decode (30_encoding.md) -/

/-- Decoding an instruction's word, or its bytes followed by any others, gives the instruction back: no operand bit is dropped,
the ignored fields included (R70, R71, R75, R81; opcode numbers: log entry 1; that an instruction carries its ignored fields is
the model's choice, log entry 13). -/
def Obligations.DecodeInvertsEncode : Prop :=
  ∀ (i : Instr) (rest : List Byte),
    decodeWord (encode i) = .ok i ∧ decodeBytes (bytesOfWord (encode i) ++ rest) = .ok (i, rest)

/-- A word that decodes is the word of the instruction it decodes to. That each `Instr` has exactly one word is the MODEL'S CHOICE
(log entry 13: an instruction carries the fields decoding ignores), not the spec's: by R80 and R82 the words 5xy0 to 5xyF, 9xy0 to
9xyF, or a shift with any `y`, are one and the same instruction. Opcode numbers: log entry 1. -/
def Obligations.EncodeInvertsDecode : Prop :=
  ∀ (w : Word) (i : Instr), decodeWord w = .ok i → encode i = w

/-- Words written out from the spec decode to what they stand for: the five the source shows (R85) and at least one of every
family from its rule's example (log entry 1). -/
def Obligations.WrittenOutWordsDecode : Prop :=
  decodeWord 0x6005 = .ok (.setImm 0 5) ∧ decodeWord 0x6103 = .ok (.setImm 1 3) ∧
  decodeWord 0x8014 = .ok (.addReg 0 1) ∧ decodeWord 0x2208 = .ok (.call 0x208) ∧ decodeWord 0x00EE = .ok .ret ∧
  decodeWord 0x5120 = .ok (.skipEqReg 1 2 0) ∧ decodeWord 0xF265 = .ok (.regLoad 2) ∧
  decodeWord 0xD015 = .ok (.draw 0 1 5) ∧ decodeWord 0xE29E = .ok (.skipIfKey 2) ∧
  decodeTableWord 16 0x8014 = some (.addReg 0 1)

/-- The 34 patterns of R81's table, each for every value of its fields: the number is the pattern read as hexadecimal digits (R7),
ignored digits taking any value (R71 to R74, R76 to R81; log entry 1) and carried in the instruction (log entry 13). -/
def Obligations.TablePatternsDecode : Prop :=
  ∀ (x y : Reg) (n : Nibble) (nn : Byte) (nnn : Addr),
    let XN := fun g : Nat => BitVec.ofNat 16 (0x1000 * g + 0x100 * x.val + nn.toNat)
    let A := fun g : Nat => BitVec.ofNat 16 (0x1000 * g + nnn.toNat)
    let XY := fun g d : Nat => BitVec.ofNat 16 (0x1000 * g + 0x100 * x.val + 0x10 * y.val + d)
    let XS := fun g b : Nat => BitVec.ofNat 16 (0x1000 * g + 0x100 * x.val + b)
    decodeWord 0x00E0 = .ok .clearScreen ∧ decodeWord 0x00EE = .ok .ret ∧
    decodeWord (A 1) = .ok (.jump nnn) ∧ decodeWord (A 2) = .ok (.call nnn) ∧
    decodeWord (XN 3) = .ok (.skipEqImm x nn) ∧ decodeWord (XN 4) = .ok (.skipNeqImm x nn) ∧
    decodeWord (XY 5 n.toNat) = .ok (.skipEqReg x y n) ∧
    decodeWord (XN 6) = .ok (.setImm x nn) ∧ decodeWord (XN 7) = .ok (.addImm x nn) ∧
    decodeWord (XY 8 0) = .ok (.assign x y) ∧ decodeWord (XY 8 1) = .ok (.or x y) ∧
    decodeWord (XY 8 2) = .ok (.and x y) ∧ decodeWord (XY 8 3) = .ok (.xor x y) ∧
    decodeWord (XY 8 4) = .ok (.addReg x y) ∧ decodeWord (XY 8 5) = .ok (.subReg x y) ∧
    decodeWord (XY 8 6) = .ok (.shiftRight x (BitVec.ofFin y)) ∧ decodeWord (XY 8 7) = .ok (.subRegRev x y) ∧
    decodeWord (XY 8 0xE) = .ok (.shiftLeft x (BitVec.ofFin y)) ∧
    decodeWord (XY 9 n.toNat) = .ok (.skipNeqReg x y n) ∧
    decodeWord (A 0xA) = .ok (.setIndex nnn) ∧ decodeWord (A 0xB) = .ok (.jumpOffset nnn) ∧
    decodeWord (XN 0xC) = .ok (.random x nn) ∧ decodeWord (XY 0xD n.toNat) = .ok (.draw x y n) ∧
    decodeWord (XS 0xE 0x9E) = .ok (.skipIfKey x) ∧ decodeWord (XS 0xE 0xA1) = .ok (.skipIfNotKey x) ∧
    decodeWord (XS 0xF 0x07) = .ok (.getDelay x) ∧ decodeWord (XS 0xF 0x0A) = .ok (.waitKey x) ∧
    decodeWord (XS 0xF 0x15) = .ok (.setDelay x) ∧ decodeWord (XS 0xF 0x18) = .ok (.setSound x) ∧
    decodeWord (XS 0xF 0x1E) = .ok (.addIndex x) ∧ decodeWord (XS 0xF 0x29) = .ok (.fontAddress x) ∧
    decodeWord (XS 0xF 0x33) = .ok (.bcdStore x) ∧ decodeWord (XS 0xF 0x55) = .ok (.regDump x) ∧
    decodeWord (XS 0xF 0x65) = .ok (.regLoad x)

/-- The unrecognised words are exactly those of R82's table, each rejected under its group's name (R76 to R79, R82; decisions D1
and D2, log entries 1 and 9). -/
def Obligations.UnrecognisedWordsAreTheListed : Prop :=
  ∀ w : Word,
    (decodeWord w = .error .unrecognisedGroup0 ↔ w.toNat < 0x1000 ∧ w.toNat ≠ 0x00E0 ∧ w.toNat ≠ 0x00EE) ∧
    (decodeWord w = .error .unrecognisedGroup8 ↔ w.toNat / 0x1000 = 8 ∧ w.toNat % 0x10 ∈ [8, 9, 0xA, 0xB, 0xC, 0xD, 0xF]) ∧
    (decodeWord w = .error .unrecognisedGroupE ↔ w.toNat / 0x1000 = 0xE ∧ w.toNat % 0x100 ∉ [0x9E, 0xA1]) ∧
    (decodeWord w = .error .unrecognisedGroupF ↔
      w.toNat / 0x1000 = 0xF ∧ w.toNat % 0x100 ∉ [0x07, 0x0A, 0x15, 0x18, 0x1E, 0x29, 0x33, 0x55, 0x65]) ∧
    decodeWord w ≠ .error .truncated

/-- The rows of R81's table: no word matches two of them, a word that decodes matches the row of its instruction, and a word that
matches no row, and no other, is unrecognised (R81; log entry 1). -/
def Obligations.EachWordMatchesAtMostOneRow : Prop :=
  (opcodeRows.Pairwise fun a b => ∀ w : Word, ¬ (w &&& a.2 = a.1 ∧ w &&& b.2 = b.1)) ∧
  (∀ (w : Word) (i : Instr), decodeWord w = .ok i → matchMask i ∈ opcodeRows ∧ w &&& (matchMask i).2 = (matchMask i).1) ∧
  (∀ w : Word, (∃ e, decodeWord w = .error e) ↔ ∀ row ∈ opcodeRows, w &&& row.2 ≠ row.1)

/-! ### The cycle (40_cycle.md, 60_exceptions.md) -/

/-- Where the two bytes at `pc` decode to `i`, the step is `exec` of `i` and, on a next state, the timer tick; the word is
big-endian (R54, R90 to R94). That a fault of `exec` is the step's own is the model's reading of R180 (DEDUCED, log entry 6): by
R95 an erring cycle ticks the timers and returns its outcome, which `cycle` gives and `ErrorCycleOnlyTicks` states. -/
def Obligations.StepRunsTheDecodedInstruction : Prop :=
  ∀ (s : State) (i : Instr), s.pc.toNat ≤ 0xFFE → decodeBytes (Memory.read s.mem s.pc.toNat 2) = .ok (i, []) →
    Executes s i ∧
    (fetchedWord s).toNat = 256 * (Memory.get s.mem s.pc.toNat).toNat + (Memory.get s.mem (s.pc.toNat + 1)).toNat ∧
    step s = match exec i s with
      | .next t => .next (timerTick t)
      | .fault f => .fault f
      | .refused r => .refused r

/-- A fetch any byte of which lies above 0xFFF is `AddressError(pc, pc + 1)`, at any such `pc`; there is no wrap (R53, R91, R174:
the spec's decision D4, log entry 9). That the step is that fault is the model's reading of R180 (DEDUCED, log entry 6); that the
cycle still ticks the timers is decision D11 (R95, log entry 9). -/
def Obligations.FetchBeyondMemoryStops : Prop :=
  ∀ s : State, 0xFFE < s.pc.toNat →
    step s = .fault (.addressError s.pc (s.pc.toNat + 1)) ∧
    cycle s = { after := timerTick s, outcome := .error (.addressError s.pc (s.pc.toNat + 1)) }

/-- An unrecognised word is reported as the cycle's outcome and nothing but the timer tick happens: `pc` is unchanged (R171). That
the step is that fault, so that a run of steps ends there, is the model's reading of R180 (DEDUCED, log entry 6): R171 itself calls
the outcome non-fatal. -/
def Obligations.UnrecognisedWordStops : Prop :=
  ∀ s : State, s.pc.toNat ≤ 0xFFE → (∃ e, decodeWord (fetchedWord s) = .error e) →
    step s = .fault (.decodeError s.pc (fetchedWord s)) ∧
    (cycle s).outcome = .error (.decodeError s.pc (fetchedWord s)) ∧
    (cycle s).after = timerTick s ∧ (cycle s).after.pc = s.pc

/-- A cycle with an error outcome changes nothing but the timers and the tone output, and the step is that fault (R95, R178; the
decisions D11 and, for `step`, R180; log entry 6). -/
def Obligations.ErrorCycleOnlyTicks : Prop :=
  ∀ (s : State) (f : Fault),
    ((cycle s).outcome = .error f ↔ step s = .fault f) ∧
    ((cycle s).outcome = .error f →
      (cycle s).after = { s with dt := countDown s.dt, st := countDown s.st, tone := decide (s.st = 1) })

/-- Every error recurs, with the same payload and at the same `pc`, in every later cycle (R180, C9; log entry 6). -/
def Obligations.ErrorsRepeatInEveryLaterCycle : Prop :=
  ∀ (k : Nat) (s : State) (f : Fault), (cycle s).outcome = .error f →
    (cycle (afterCycles k s)).outcome = .error f ∧ (afterCycles k s).pc = s.pc ∧ (afterCycles k s).mem = s.mem

/-- The timer tick (R96): performed in every cycle, it sees the timers as the instruction of the same cycle left them, or as they
were where the cycle erred; neither wraps; the tone bit is 1 exactly when it finds `ST` = 1; `get-delay` reads `DT` before it. The
tick after every error, and the point of comparison, are decisions D11 and D20 (log entries 6 and 9). -/
def Obligations.EveryCycleTicksTheTimers : Prop :=
  (∀ s u : State, (runInstruction s = .next u ∨ ((∃ f, runInstruction s = .fault f) ∧ u = s)) →
    (cycle s).after.dt.toNat = u.dt.toNat - 1 ∧ (cycle s).after.st.toNat = u.st.toNat - 1 ∧
    ((cycle s).after.tone = true ↔ u.st.toNat = 1)) ∧
  (∀ s : State, (∃ u, runInstruction s = .next u) ∨ ∃ f, runInstruction s = .fault f) ∧
  (∀ (x : Reg) (s : State), Executes s (.getDelay x) →
    readReg (cycle s).after x = s.dt ∧ (cycle s).after.dt.toNat = s.dt.toNat - 1)

/-- After `k` cycles in none of which a `set-delay` executes, `DT` has gone down by `k`, to 0 at the least; likewise `ST` with
`set-sound`, and then the tone fires in cycle `k + 1` exactly when `ST` was `k + 1` (R96, R97). Cycles of every outcome count. -/
def Obligations.TimersCountCycles : Prop :=
  ∀ (k : Nat) (s : State),
    ((∀ j < k, ∀ x, ¬ Executes (afterCycles j s) (.setDelay x)) → (afterCycles k s).dt.toNat = s.dt.toNat - k) ∧
    ((∀ j < k, ∀ x, ¬ Executes (afterCycles j s) (.setSound x)) → (afterCycles k s).st.toNat = s.st.toNat - k) ∧
    ((∀ j < k + 1, ∀ x, ¬ Executes (afterCycles j s) (.setSound x)) →
      ((afterCycles (k + 1) s).tone = true ↔ s.st.toNat = k + 1))

/-- Which instruction errs when, and with what: `call` and `return` on the stack's bounds, the four memory instructions above
0xFFF, the key skips above 15, no other ever (R170, R172 to R175, R177; decisions D4, D5, D21, D22). -/
def Obligations.ErrorsOfEachInstruction : Prop :=
  ∀ (i : Instr) (s : State) (f : Fault), exec i s = .fault f ↔
    match i with
    | .call _ => f = .stackOverflow s.pc ∧ s.sp.val = 16
    | .ret => f = .stackUnderflow s.pc ∧ s.sp.val = 0
    | .draw _ _ n => f = .addressError s.pc (s.index.toNat + n.toNat - 1) ∧ 0 < n.toNat ∧ 0xFFF < s.index.toNat + n.toNat - 1
    | .bcdStore _ => f = .addressError s.pc (s.index.toNat + 2) ∧ 0xFFF < s.index.toNat + 2
    | .regDump x => f = .addressError s.pc (s.index.toNat + x.val) ∧ 0xFFF < s.index.toNat + x.val
    | .regLoad x => f = .addressError s.pc (s.index.toNat + x.val) ∧ 0xFFF < s.index.toNat + x.val
    | .skipIfKey x => f = .keyIndexError s.pc (readReg s x) ∧ 15 < (readReg s x).toNat
    | .skipIfNotKey x => f = .keyIndexError s.pc (readReg s x) ∧ 15 < (readReg s x).toNat
    | _ => False

/-- No instruction is refused: every one, in every state, completes or errs (R92, R177, R183). -/
def Obligations.EveryInstructionCompletesOrErrs : Prop :=
  ∀ (i : Instr) (s : State), (∃ t, exec i s = .next t) ∨ ∃ f, exec i s = .fault f

/-! ### Control flow (41_control_flow.md) -/

/-- `return` pops slot `k` where `sp` = `k + 1`; the slot keeps its value, only `sp` and `pc` change (R101; decision D16). -/
def Obligations.ReturnPopsAndAddsTwo : Prop :=
  ∀ (s : State) (k : Fin 16), s.sp.val = k.val + 1 →
    ∃ t, exec .ret s = .next t ∧ Frame { sp := true } s t ∧ t.sp.val = k.val ∧
      t.pc.toNat = (s.stack[k.val].toNat + 2) % 65536

/-- `return` with `sp` = 0 is `StackUnderflow`; `sp` stays 0 and `pc` is unchanged (R173). -/
def Obligations.ReturnWithEmptyStackStops : Prop :=
  ∀ s : State, s.sp.val = 0 →
    exec .ret s = .fault (.stackUnderflow s.pc) ∧
    (Executes s .ret → (cycle s).outcome = .error (.stackUnderflow s.pc) ∧ (cycle s).after.sp.val = 0 ∧
      (cycle s).after.pc = s.pc)

/-- `jump` replaces `pc` by the zero-extended address and changes nothing else (R100, R102). -/
def Obligations.JumpReplacesPc : Prop :=
  ∀ (nnn : Addr) (s : State), ∃ t, exec (.jump nnn) s = .next t ∧ Frame {} s t ∧ t.pc.toNat = nnn.toNat

/-- `call`, word 2nnn, pushes its own address into slot `sp` and jumps; with `sp` = 16 it is `StackOverflow` and no slot, `sp` or
`pc` changes (R103, R172). -/
def Obligations.CallPushesItsOwnAddress : Prop :=
  ∀ (nnn : Addr) (s : State),
    decodeWord (BitVec.ofNat 16 (0x2000 + nnn.toNat)) = .ok (.call nnn) ∧
    (∀ k : Fin 16, s.sp.val = k.val →
      ∃ t, exec (.call nnn) s = .next t ∧ Frame { slots := [k], sp := true } s t ∧ t.stack[k.val] = s.pc ∧
        t.sp.val = k.val + 1 ∧ t.pc.toNat = nnn.toNat) ∧
    (s.sp.val = 16 → exec (.call nnn) s = .fault (.stackOverflow s.pc) ∧
      (Executes s (.call nnn) → (cycle s).outcome = .error (.stackOverflow s.pc) ∧ (cycle s).after.stack = s.stack ∧
        (cycle s).after.sp = s.sp ∧ (cycle s).after.pc = s.pc))

/-- The immediate skips: 4 instead of 2 where `V[x]` equals, respectively differs from, `nn`; nothing else changes (R100, R104,
R105). -/
def Obligations.ImmediateSkipsAddFourOrTwo : Prop :=
  ∀ (x : Reg) (nn : Byte) (s : State),
    (∃ t, exec (.skipEqImm x nn) s = .next t ∧ Frame {} s t ∧
      PcPlus (if (readReg s x).toNat = nn.toNat then 4 else 2) s t) ∧
    (∃ t, exec (.skipNeqImm x nn) s = .next t ∧ Frame {} s t ∧
      PcPlus (if (readReg s x).toNat = nn.toNat then 2 else 4) s t)

/-- The register skips, whatever the ignored nibble: 4 instead of 2 where `V[x]` and `V[y]` are equal, respectively differ;
nothing else changes (R80, R100, R106, R107). -/
def Obligations.RegisterSkipsAddFourOrTwo : Prop :=
  ∀ (x y : Reg) (ignored : Nibble) (s : State),
    (∃ t, exec (.skipEqReg x y ignored) s = .next t ∧ Frame {} s t ∧
      PcPlus (if (readReg s x).toNat = (readReg s y).toNat then 4 else 2) s t) ∧
    (∃ t, exec (.skipNeqReg x y ignored) s = .next t ∧ Frame {} s t ∧
      PcPlus (if (readReg s x).toNat = (readReg s y).toNat then 2 else 4) s t)

/-- `jump-offset` adds `V[0]`, always, and the sum is not reduced to 12 bits (R108). -/
def Obligations.JumpOffsetAddsRegisterZero : Prop :=
  ∀ (nnn : Addr) (s : State), ∃ t, exec (.jumpOffset nnn) s = .next t ∧ Frame {} s t ∧
    t.pc.toNat = (readReg s 0).toNat + nnn.toNat

/-! ### Arithmetic and logic (42_arithmetic_logic.md) -/

/-- `set-imm`, word 6xnn: `V[x]` is `nn`, no other register, `V[15]` included unless it is `x`, and nothing else changes (R121). -/
def Obligations.SetImmLoadsTheByte : Prop :=
  ∀ (x : Reg) (nn : Byte) (s : State),
    decodeWord (BitVec.ofNat 16 (0x6000 + 0x100 * x.val + nn.toNat)) = .ok (.setImm x nn) ∧
    ∃ t, exec (.setImm x nn) s = .next t ∧ Frame { regs := [x] } s t ∧ readReg t x = nn ∧ PcPlus 2 s t

/-- `add-imm`: the sum modulo 256, no flag (R120, R122). -/
def Obligations.AddImmWrapsAndSetsNoFlag : Prop :=
  ∀ (x : Reg) (nn : Byte) (s : State), ∃ t, exec (.addImm x nn) s = .next t ∧ Frame { regs := [x] } s t ∧
    (readReg t x).toNat = ((readReg s x).toNat + nn.toNat) % 256 ∧ PcPlus 2 s t

/-- `assign`, `or`, `and`, `xor`: `V[x]` bit by bit, no flag (R123 to R126; destination `V[x]`: G3, log entry 1). -/
def Obligations.CopyAndLogicWriteOnlyVx : Prop :=
  ∀ (x y : Reg) (s : State),
    (∃ t, exec (.assign x y) s = .next t ∧ Frame { regs := [x] } s t ∧ PcPlus 2 s t ∧ readReg t x = readReg s y) ∧
    (∃ t, exec (.or x y) s = .next t ∧ Frame { regs := [x] } s t ∧ PcPlus 2 s t ∧
      ∀ b < 8, (readReg t x).getLsbD b = ((readReg s x).getLsbD b || (readReg s y).getLsbD b)) ∧
    (∃ t, exec (.and x y) s = .next t ∧ Frame { regs := [x] } s t ∧ PcPlus 2 s t ∧
      ∀ b < 8, (readReg t x).getLsbD b = ((readReg s x).getLsbD b && (readReg s y).getLsbD b)) ∧
    (∃ t, exec (.xor x y) s = .next t ∧ Frame { regs := [x] } s t ∧ PcPlus 2 s t ∧
      ∀ b < 8, (readReg t x).getLsbD b = ((readReg s x).getLsbD b ^^ (readReg s y).getLsbD b))

/-- `add-reg`: `V[15]` ends as the carry, also where `x` is 15; any other `V[x]` as the sum modulo 256 (R120, R127, R133;
decision D6). -/
def Obligations.AddRegGivesSumAndCarry : Prop :=
  ∀ (x y : Reg) (s : State), ∃ t, exec (.addReg x y) s = .next t ∧ Frame { regs := [x, flagReg] } s t ∧ PcPlus 2 s t ∧
    (x ≠ flagReg → (readReg t x).toNat = ((readReg s x).toNat + (readReg s y).toNat) % 256) ∧
    (readReg t flagReg).toNat = if 255 < (readReg s x).toNat + (readReg s y).toNat then 1 else 0

/-- `sub-reg`: `V[15]` ends as not-borrow, 1 where the operands are equal; any other `V[x]` as `V[x] - V[y]` modulo 256 (R120,
R128, R133; decision D6). -/
def Obligations.SubRegGivesDifferenceAndNotBorrow : Prop :=
  ∀ (x y : Reg) (s : State), ∃ t, exec (.subReg x y) s = .next t ∧ Frame { regs := [x, flagReg] } s t ∧ PcPlus 2 s t ∧
    (x ≠ flagReg → (readReg t x).toNat = ((readReg s x).toNat + 256 - (readReg s y).toNat) % 256) ∧
    (readReg t flagReg).toNat = if (readReg s x).toNat < (readReg s y).toNat then 0 else 1

/-- `sub-reg-rev`: the operands the other way round (R130, R133; decision D6). -/
def Obligations.SubRegRevGivesReverseDifference : Prop :=
  ∀ (x y : Reg) (s : State), ∃ t, exec (.subRegRev x y) s = .next t ∧ Frame { regs := [x, flagReg] } s t ∧ PcPlus 2 s t ∧
    (x ≠ flagReg → (readReg t x).toNat = ((readReg s y).toNat + 256 - (readReg s x).toNat) % 256) ∧
    (readReg t flagReg).toNat = if (readReg s y).toNat < (readReg s x).toNat then 0 else 1

/-- The shifts, whatever the ignored `y` field: one position, a zero enters, `V[15]` ends as the bit shifted out (R129, R131, R133;
decision D6). -/
def Obligations.ShiftsMoveOneBitIntoTheFlag : Prop :=
  ∀ (x : Reg) (ignored : Nibble) (s : State),
    (∃ t, exec (.shiftRight x ignored) s = .next t ∧ Frame { regs := [x, flagReg] } s t ∧ PcPlus 2 s t ∧
      (x ≠ flagReg → (readReg t x).toNat = (readReg s x).toNat / 2) ∧
      (readReg t flagReg).toNat = (readReg s x).toNat % 2) ∧
    (∃ t, exec (.shiftLeft x ignored) s = .next t ∧ Frame { regs := [x, flagReg] } s t ∧ PcPlus 2 s t ∧
      (x ≠ flagReg → (readReg t x).toNat = 2 * (readReg s x).toNat % 256) ∧
      (readReg t flagReg).toNat = (readReg s x).toNat / 128)

/-- The six flag-writing instructions leave 0 or 1 in `V[15]`, whatever their operands (R22, R152; decision D6). -/
def Obligations.FlagWritersLeaveZeroOrOne : Prop :=
  ∀ (x y : Reg) (n : Nibble) (s t : State),
    (∃ i ∈ [Instr.addReg x y, .subReg x y, .shiftRight x n, .subRegRev x y, .shiftLeft x n, .draw x y n], exec i s = .next t) →
    readReg t flagReg = 0 ∨ readReg t flagReg = 1

/-- `random`: the free byte of this draw, whatever it is, masked by `nn`; the next execution draws the next one (R34, R132;
decision D13, log entry 4). The statement is about every value of `Config.freeRandom`, which has no body. -/
def Obligations.RandomIsAFreeByteMasked : Prop :=
  ∀ (x : Reg) (nn : Byte) (s : State), ∃ t, exec (.random x nn) s = .next t ∧ Frame { regs := [x], rnd := true } s t ∧
    PcPlus 2 s t ∧ readReg t x = Config.freeRandom s.rndCount &&& nn ∧ t.rndCount = s.rndCount + 1 ∧
    ∀ b < 8, nn.getLsbD b = false → (readReg t x).getLsbD b = false

/-! ### Index register and memory transfer (43_memory_transfer.md) -/

/-- `set-index` (R141). -/
def Obligations.SetIndexLoadsTheAddress : Prop :=
  ∀ (nnn : Addr) (s : State), ∃ t, exec (.setIndex nnn) s = .next t ∧ Frame { index := true } s t ∧
    t.index.toNat = nnn.toNat ∧ PcPlus 2 s t

/-- `add-index`: modulo 65536, no flag, no error above 0xFFF (R23, R142; decision D15). -/
def Obligations.AddIndexWrapsAt65536 : Prop :=
  ∀ (x : Reg) (s : State), ∃ t, exec (.addIndex x) s = .next t ∧ Frame { index := true } s t ∧
    t.index.toNat = (s.index.toNat + (readReg s x).toNat) % 65536 ∧ PcPlus 2 s t

/-- `font-address`: five times the whole byte, not masked (R143). -/
def Obligations.FontAddressIsFiveTimesVx : Prop :=
  ∀ (x : Reg) (s : State), ∃ t, exec (.fontAddress x) s = .next t ∧ Frame { index := true } s t ∧
    t.index.toNat = 5 * (readReg s x).toNat ∧ PcPlus 2 s t

/-- `bcd-store` in range: hundreds, tens, ones at `I`, `I + 1`, `I + 2`; every other byte and `I` itself as before (R140, R144). -/
def Obligations.BcdStoreWritesThreeDigits : Prop :=
  ∀ (x : Reg) (s : State), s.index.toNat + 2 ≤ 0xFFF →
    ∃ t, exec (.bcdStore x) s = .next t ∧ Frame { bytes := [indexAddr s, indexAddr s + 1, indexAddr s + 2] } s t ∧
      PcPlus 2 s t ∧
      (Memory.get t.mem (indexAddr s)).toNat = (readReg s x).toNat / 100 ∧
      (Memory.get t.mem (indexAddr s + 1)).toNat = (readReg s x).toNat / 10 % 10 ∧
      (Memory.get t.mem (indexAddr s + 2)).toNat = (readReg s x).toNat % 10

/-- `reg-dump` in range: `V[k]` at `I + k` for every `k` up to `x`, every other byte and every register as before, `I` past the
bytes moved, by the field `x` and not by `V[x]` (R140, R145; decision D7). -/
def Obligations.RegDumpStoresUpToVx : Prop :=
  ∀ (x : Reg) (s : State), s.index.toNat + x.val ≤ 0xFFF →
    ∃ t, exec (.regDump x) s = .next t ∧
      Frame { index := true, bytes := List.range' (indexAddr s) (x.val + 1) } s t ∧ PcPlus 2 s t ∧
      (∀ k : Reg, k.val ≤ x.val → Memory.get t.mem (indexAddr s + k.val) = readReg s k) ∧
      t.index.toNat = s.index.toNat + x.val + 1

/-- `reg-load` in range: `V[k]` from `I + k` for every `k` up to `x`, every other register and all memory as before, `I` past the
bytes moved (R140, R146; decision D7). -/
def Obligations.RegLoadLoadsUpToVx : Prop :=
  ∀ (x : Reg) (s : State), s.index.toNat + x.val ≤ 0xFFF →
    ∃ t, exec (.regLoad x) s = .next t ∧ Frame { index := true, regs := regsTo x } s t ∧ PcPlus 2 s t ∧
      (∀ k : Reg, k.val ≤ x.val → readReg t k = Memory.get s.mem (indexAddr s + k.val)) ∧
      t.index.toNat = s.index.toNat + x.val + 1

/-- `reg-load` with the same `x` restores what `reg-dump` stored, in any later state whose memory reads the same and in which `I`
has been reloaded; the state in between may have lost the registers (R145, R146; C7). -/
def Obligations.LoadRestoresWhatDumpStored : Prop :=
  ∀ (x : Reg) (s t r : State), exec (.regDump x) s = .next t → (∀ a, Memory.get r.mem a = Memory.get t.mem a) →
    r.index = s.index →
    ∃ u, exec (.regLoad x) r = .next u ∧ ∀ k : Reg, k.val ≤ x.val → readReg u k = readReg s k

/-! ### Graphics (44_graphics.md) -/

/-- `clear-screen`: every pixel 0, `redraw` and `V[15]` as before (R151; decision D19). -/
def Obligations.ClearScreenZeroesEveryPixel : Prop :=
  ∀ s : State, ∃ t, exec .clearScreen s = .next t ∧ Frame { px := true } s t ∧ PcPlus 2 s t ∧
    ∀ X Y, getPixel t.px X Y = false

/-- `draw` in range, `n` = 0 with any `I` included: exactly the covered pixels flip, `V[15]` is 1 where a covered pixel was 1 and
else 0, `redraw` is 1; `I` and memory as before (R150, R152; decisions D8, D9, D10, G4; log entries 1 and 9). -/
def Obligations.DrawFlipsTheCoveredPixels : Prop :=
  ∀ (x y : Reg) (n : Nibble) (s : State), (n.toNat = 0 ∨ s.index.toNat + n.toNat - 1 ≤ 0xFFF) →
    ∃ t, exec (.draw x y n) s = .next t ∧ Frame { regs := [flagReg], px := true, redraw := true } s t ∧ PcPlus 2 s t ∧
      t.redraw = true ∧
      (∀ X Y, (Covered x y n s X Y → getPixel t.px X Y = !getPixel s.px X Y) ∧
        (¬ Covered x y n s X Y → getPixel t.px X Y = getPixel s.px X Y)) ∧
      (readReg t flagReg = 1 ∧ (∃ X Y, Covered x y n s X Y ∧ getPixel s.px X Y = true) ∨
        readReg t flagReg = 0 ∧ ¬ ∃ X Y, Covered x y n s X Y ∧ getPixel s.px X Y = true)

/-- The same `draw` twice, with the same `V[x]`, `V[y]`, `I` and sprite bytes and the pixels the first one left, restores the pixel
buffer (R153 a; S7). -/
def Obligations.DrawingTwiceRestoresTheScreen : Prop :=
  ∀ (x y : Reg) (n : Nibble) (s t r u : State), exec (.draw x y n) s = .next t → exec (.draw x y n) r = .next u →
    readReg r x = readReg s x → readReg r y = readReg s y → r.index = s.index →
    (∀ k < n.toNat, Memory.get r.mem (indexAddr s + k) = Memory.get s.mem (indexAddr s + k)) → r.px = t.px →
    u.px = s.px

/-- Of two such draws the second reports a collision exactly when the first left some covered pixel 1; on a buffer that was clear
under the sprite, exactly when the sprite has a set bit (R153 b; S7). -/
def Obligations.SecondDrawReportsTheFirstOnes : Prop :=
  ∀ (x y : Reg) (n : Nibble) (s t r u : State), exec (.draw x y n) s = .next t → exec (.draw x y n) r = .next u →
    readReg r x = readReg s x → readReg r y = readReg s y → r.index = s.index →
    (∀ k < n.toNat, Memory.get r.mem (indexAddr s + k) = Memory.get s.mem (indexAddr s + k)) → r.px = t.px →
    (readReg u flagReg = 1 ↔ ∃ X Y, Covered x y n s X Y ∧ getPixel t.px X Y = true) ∧
    ((∀ X Y, Covered x y n s X Y → getPixel s.px X Y = false) →
      (readReg u flagReg = 1 ↔ ∃ X Y, Covered x y n s X Y))

/-! ### Timers and keys (45_timer_input.md) -/

/-- The key skips where `V[x]` is a key's number `k`: 4 instead of 2 where the key is down, respectively up; nothing else
changes (R160, R161, R162). -/
def Obligations.KeySkipsAddFourOrTwo : Prop :=
  ∀ (x : Reg) (k : Key) (s : State), (readReg s x).toNat = k.val →
    (∃ t, exec (.skipIfKey x) s = .next t ∧ Frame {} s t ∧ PcPlus (if s.key[k.val] = true then 4 else 2) s t) ∧
    (∃ t, exec (.skipIfNotKey x) s = .next t ∧ Frame {} s t ∧ PcPlus (if s.key[k.val] = true then 2 else 4) s t)

/-- `wait-key`: with no key down the instruction changes nothing, `pc` included, and is no error; else `V[x]` is the least key that
is down and `pc` advances. The waiting cycle is a step whose whole effect is the timer tick (R164, R188). -/
def Obligations.WaitKeyTakesTheLowestKey : Prop :=
  ∀ (x : Reg) (s : State),
    ((∀ k : Key, s.key[k.val] = false) →
      exec (.waitKey x) s = .next s ∧ (Executes s (.waitKey x) → step s = .next (timerTick s))) ∧
    (∀ k : Key, s.key[k.val] = true → (∀ j : Key, j.val < k.val → s.key[j.val] = false) →
      ∃ t, exec (.waitKey x) s = .next t ∧ Frame { regs := [x] } s t ∧ (readReg t x).toNat = k.val ∧ PcPlus 2 s t)

/-- `get-delay` copies `DT` into `V[x]`; `set-delay` and `set-sound` copy `V[x]`, any value, into their timer (R27, R163, R165,
R166). -/
def Obligations.TimerInstructionsCopyWholeBytes : Prop :=
  ∀ (x : Reg) (s : State),
    (∃ t, exec (.getDelay x) s = .next t ∧ Frame { regs := [x] } s t ∧ readReg t x = s.dt ∧ PcPlus 2 s t) ∧
    (∃ t, exec (.setDelay x) s = .next t ∧ Frame { dt := true } s t ∧ t.dt = readReg s x ∧ PcPlus 2 s t) ∧
    (∃ t, exec (.setSound x) s = .next t ∧ Frame { st := true } s t ∧ t.st = readReg s x ∧ PcPlus 2 s t)

/-- The tick of the same cycle sees the timer just written: the cycle leaves one less, and a `set-sound` of 1 raises the tone at
once (R96, R165, R166; C3). -/
def Obligations.TimerWriteIsTickedInItsOwnCycle : Prop :=
  ∀ (x : Reg) (s : State),
    (Executes s (.setDelay x) → ∃ t, step s = .next t ∧ t.dt.toNat = (readReg s x).toNat - 1) ∧
    (Executes s (.setSound x) → ∃ t, step s = .next t ∧ t.st.toNat = (readReg s x).toNat - 1 ∧
      (t.tone = true ↔ (readReg s x).toNat = 1))

/-! ### The whole machine -/

/-- Every instruction changes only what the access matrix lets it write, and never the key latch or the tone (R12, R22, R33, R35,
R40). -/
def Obligations.OnlyTheAccessMatrixIsWritten : Prop :=
  ∀ (i : Instr) (s t : State), exec i s = .next t → Frame (writesOf i s) s t

/-- Every step keeps the invariant: canonical memory within 0x000 to 0xFFF, stack slots at most 0xFFE, `pc` at most 0x10FE (R24,
R50, R101, R108). -/
def Obligations.EveryStepKeepsTheInvariant : Prop :=
  ∀ s t : State, StateInvariant s → step s = .next t → StateInvariant t

/-- The invariant holds after reset (R37). -/
def Obligations.InvariantHoldsAtReset : Prop := StateInvariant State.reset

/-- Every sequence of host moves, in any order and past any error outcome, keeps the invariant (R32, R36, R170, R180, R204). -/
def Obligations.HostMovesKeepTheInvariant : Prop :=
  ∀ (s : State) (moves : List HostMove), StateInvariant s → StateInvariant (afterMoves s moves)

/-- After `Reset()` every piece of state has R37's value, whatever it was before; the key latch is as it was and resetting again
changes nothing (R37, R200, R201; decision D12; the font bytes, log entry 2; the tone field, log entry 5). -/
def Obligations.ResetLeavesTheResetValues : Prop :=
  ∀ s : State, let r := hostReset s
    (∀ a, Memory.get r.mem a = if a < 80 then font.getD a 0 else 0) ∧ (∀ x, readReg r x = 0) ∧ r.index = 0 ∧
    r.pc.toNat = 0x200 ∧ (∀ k : Fin 16, r.stack[k.val] = 0) ∧ r.sp.val = 0 ∧ r.dt.toNat = 60 ∧ r.st.toNat = 60 ∧
    (∀ X Y, getPixel r.px X Y = false) ∧ r.redraw = false ∧ r.tone = false ∧ r.key = s.key ∧ hostReset r = r

/-- `Load` of at most 3584 bytes: the program from 0x200 upward, and everything else as after reset, length 0 included (R204;
decision D29). -/
def Obligations.LoadCopiesTheProgramAfterReset : Prop :=
  ∀ (bytes : List Byte) (s : State), bytes.length ≤ 3584 →
    (hostLoad bytes s).2 = .ok ∧
    (∀ k, (h : k < bytes.length) → Memory.get (hostLoad bytes s).1.mem (0x200 + k) = bytes[k]) ∧
    (∀ a, (a < 0x200 ∨ 0x200 + bytes.length ≤ a) → Memory.get (hostLoad bytes s).1.mem a = Memory.get (hostReset s).mem a) ∧
    { (hostLoad bytes s).1 with mem := [] } = hostReset s

/-- `Load` fails exactly on more than 3584 bytes, and then the state is exactly that of `Reset()` (R205). -/
def Obligations.OversizedLoadLeavesTheResetState : Prop :=
  ∀ (bytes : List Byte) (s : State),
    ((hostLoad bytes s).2 = .loadError ↔ 3584 < bytes.length) ∧
    ((hostLoad bytes s).2 = .loadError → (hostLoad bytes s).1 = hostReset s)

/-- "The program has ended" is `pc` at a `jump` to its own address; from then on it has ended for good: every cycle is Ok and leaves
all state unchanged except the two timers, which run down, and the tone output (R207; the definition is decision D28, log entry 9;
the tone field is the model's own, log entry 5). -/
def Obligations.SelfJumpOnlyRunsTheTimersDown : Prop :=
  ∀ s : State,
    (programEnded s = true ↔ ∃ nnn, Executes s (.jump nnn) ∧ s.pc.toNat = nnn.toNat) ∧
    ∀ k : Nat, programEnded s = true →
      (∃ d e b, afterCycles k s = { s with dt := d, st := e, tone := b } ∧ d.toNat = s.dt.toNat - k ∧
        e.toNat = s.st.toNat - k) ∧
      (cycle (afterCycles k s)).outcome = .ok ∧ programEnded (afterCycles k s) = true

/-- Self-modifying code: bytes stored by `reg-dump` over the next two bytes of the program are the word the next cycle fetches
(R60, R63). -/
def Obligations.StoredBytesAreFetchedNext : Prop :=
  ∀ (x k j : Reg) (s : State), Executes s (.regDump x) → s.index.toNat + x.val ≤ 0xFFF → j.val = k.val + 1 → j.val ≤ x.val →
    s.pc.toNat + 2 = s.index.toNat + k.val →
    fetchedWord (cycle s).after = wordOfBytes (readReg s k) (readReg s j)

/-- No instruction reads the sound timer, `redraw` or the tone: two states that differ only in those give the same outcome in every
cycle and never differ in anything else (R28, R30, R35, R96), with the same random bytes: both runs draw the k-th byte of the one
`Config.freeRandom` (log entry 4, the model's choice; by R34 two executions may receive any two bytes). The tone is a field of the
model's own (log entry 5). -/
def Obligations.OutputsNeverInfluenceTheProgram : Prop :=
  ∀ (k : Nat) (s s' : State), withoutOutputs s = withoutOutputs s' →
    withoutOutputs (afterCycles k s) = withoutOutputs (afterCycles k s') ∧
    (cycle (afterCycles k s)).outcome = (cycle (afterCycles k s')).outcome

/-- Only the three key instructions read the latch: any other instruction does the same whatever the latch holds, and hands the
latch on unchanged (R33, R160). For `random` the byte drawn is held the same: both executions draw `Config.freeRandom` at the same
count (log entry 4, the model's choice; by R34 two executions may receive any two bytes). -/
def Obligations.OnlyKeyInstructionsReadTheLatch : Prop :=
  ∀ (i : Instr) (s : State) (latch : Vector Bool 16), readsKeys i = false →
    exec i { s with key := latch } = match exec i s with
      | .next t => .next { t with key := latch }
      | .fault f => .fault f
      | .refused r => .refused r

/-- Between cycles the host writes one slot of the latch, or clears `redraw`, and changes nothing else (R30, R33, R35, R36). -/
def Obligations.HostWritesOnlyLatchAndRedraw : Prop :=
  ∀ (s : State) (k : Key) (pressed : Bool),
    (∀ j : Key, (hostSetKey k pressed s).key[j.val] = if j = k then pressed else s.key[j.val]) ∧
    { hostSetKey k pressed s with key := s.key } = s ∧
    (hostClearRedraw s).redraw = false ∧ { hostClearRedraw s with redraw := s.redraw } = s

/-- The host's view has the 2048 pixels, pixel (X, Y) at index `y * 64 + x` (R29, R35; `PIXEL_LAYOUT`'s default, decision D23 and
G5, log entry 10). -/
def Obligations.PixelViewIsRowByRow : Prop :=
  ∀ (s : State) (X : Fin 64) (Y : Fin 32),
    (pixelView s).length = 2048 ∧ (pixelView s)[Y.val * 64 + X.val]? = some (getPixel s.px X Y) ∧
    pixelLayout X Y = Y.val * 64 + X.val
end

