-- ==== Sys2Proof/Laws/Memory.lean ====
section
/-! SUPPORT. The laws of the RAM: a read after a write, the canonical form is kept, and equal reads mean equal lists. -/

namespace Sys2Proof.Machine

theorem Memory.get_nil (a : Nat) : Memory.get [] a = Memory.unlisted a := rfl

theorem Memory.get_cons (b : Nat) (x : Byte) (m : List Host.Cell) (a : Nat) :
    Memory.get ((b, x) :: m) a = if a = b then x else Memory.get m a := rfl

theorem Memory.get_erase_self (m : List Host.Cell) (a : Nat) : Memory.get (Memory.erase m a) a = Memory.unlisted a := by
  induction m with
  | nil => rfl
  | cons c m ih =>
    obtain ⟨b, x⟩ := c
    by_cases h : a = b <;> simp [Memory.erase, Memory.get_cons, h]
    · exact h ▸ ih
    · exact ih

theorem Memory.get_erase_other (m : List Host.Cell) {a c : Nat} (h : c ≠ a) :
    Memory.get (Memory.erase m a) c = Memory.get m c := by
  induction m with
  | nil => rfl
  | cons e m ih =>
    obtain ⟨b, x⟩ := e
    by_cases hb : a = b
    · subst hb; simp [Memory.erase, Memory.get_cons, h, ih]
    · simp [Memory.erase, Memory.get_cons, hb, ih]

theorem Memory.get_insert_other (m : List Host.Cell) {a c : Nat} (x : Byte) (hc : c ≠ a) :
    Memory.get (Memory.insert m a x) c = Memory.get m c := by
  induction m with
  | nil => simp [Memory.insert, Memory.get_cons, hc, Memory.get_nil]
  | cons e m ih =>
    obtain ⟨b, y⟩ := e
    by_cases hb : a < b
    · simp [Memory.insert, hb, Memory.get_cons, hc]
    · simp [Memory.insert, hb, Memory.get_cons, ih]

/-- Erasing first leaves no cell of the address, so the inserted one is found. -/
theorem Memory.get_insert_erase (m : List Host.Cell) (a : Nat) (x : Byte) :
    Memory.get (Memory.insert (Memory.erase m a) a x) a = x := by
  induction m with
  | nil => simp [Memory.erase, Memory.insert, Memory.get_cons]
  | cons e m ih =>
    obtain ⟨b, y⟩ := e
    by_cases hb : a = b
    · simpa [Memory.erase, hb] using hb ▸ ih
    · by_cases hl : a < b <;> simp [Memory.erase, hb, Memory.insert, hl, Memory.get_cons, ih]

/-- A read after a write (R52, R60): the byte written, and every other byte as before. -/
theorem Memory.get_set (m : List Host.Cell) (a : Nat) (x : Byte) (c : Nat) :
    Memory.get (Memory.set m a x) c = if c = a then x else Memory.get m c := by
  unfold Memory.set
  by_cases hx : x = Memory.unlisted a
  · by_cases hc : c = a
    · subst hc; simp [hx, Memory.get_erase_self]
    · simp [hx, hc, Memory.get_erase_other]
  · by_cases hc : c = a
    · subst hc; simp [hx, Memory.get_insert_erase]
    · simp [hx, hc, Memory.get_insert_other, Memory.get_erase_other]

theorem Memory.get_write (m : List Host.Cell) (base : Nat) (xs : List Byte) (c : Nat) :
    Memory.get (Memory.write m base xs) c =
      if base ≤ c ∧ c < base + xs.length then xs.getD (c - base) 0 else Memory.get m c := by
  induction xs generalizing m base with
  | nil => simp [Memory.write]
  | cons x xs ih =>
    rw [Memory.write, ih, Memory.get_set]
    by_cases h : c = base
    · simp [h]
    · by_cases h2 : base + 1 ≤ c ∧ c < base + 1 + xs.length
      · have h3 : base ≤ c ∧ c < base + (x :: xs).length := by simp; omega
        have h4 : c - base = (c - (base + 1)) + 1 := by omega
        rw [if_pos h2, if_pos h3, h4, List.getD_cons_succ]
      · have h3 : ¬ (base ≤ c ∧ c < base + (x :: xs).length) := by simp; omega
        rw [if_neg h2, if_neg h3, if_neg h]

@[simp] theorem Memory.length_read (m : List Host.Cell) (base n : Nat) : (Memory.read m base n).length = n := by
  induction n generalizing base with
  | zero => rfl
  | succ n ih => simp [Memory.read, ih]

theorem Memory.getElem_read (m : List Host.Cell) (base n k : Nat) (h : k < (Memory.read m base n).length) :
    (Memory.read m base n)[k] = Memory.get m (base + k) := by
  induction n generalizing base k with
  | zero => simp at h
  | succ n ih =>
    cases k with
    | zero => rfl
    | succ k =>
      have := ih (base + 1) k (by simpa using h)
      simpa [Memory.read, Nat.add_assoc, Nat.add_comm 1] using this

/-! ### The canonical form -/

theorem Memory.wfFrom_cons (lo a : Nat) (x : Byte) (m : List Host.Cell) :
    Memory.wfFrom lo ((a, x) :: m) = true ↔
      lo ≤ a ∧ a < 4096 ∧ x ≠ Memory.unlisted a ∧ Memory.wfFrom (a + 1) m = true := by
  simp only [Memory.wfFrom, Bool.and_eq_true, decide_eq_true_eq, and_assoc, ne_eq]; rfl

theorem Memory.wfFrom_mono {lo lo' : Nat} (h : lo' ≤ lo) {m : List Host.Cell} (hm : Memory.wfFrom lo m = true) :
    Memory.wfFrom lo' m = true := by
  cases m with
  | nil => rfl
  | cons e m =>
    obtain ⟨a, x⟩ := e
    rw [Memory.wfFrom_cons] at hm ⊢
    exact ⟨h.trans hm.1, hm.2⟩

theorem Memory.wfFrom_erase {lo : Nat} {m : List Host.Cell} (hm : Memory.wfFrom lo m = true) (a : Nat) :
    Memory.wfFrom lo (Memory.erase m a) = true := by
  induction m generalizing lo with
  | nil => rfl
  | cons e m ih =>
    obtain ⟨b, x⟩ := e
    rw [Memory.wfFrom_cons] at hm
    by_cases h : a = b
    · simpa [Memory.erase, h] using h ▸ Memory.wfFrom_mono (by omega) (ih hm.2.2.2)
    · simpa [Memory.erase, h, Memory.wfFrom_cons] using ⟨hm.1, hm.2.1, hm.2.2.1, ih hm.2.2.2⟩

theorem Memory.wfFrom_insert_erase {lo : Nat} {m : List Host.Cell} (hm : Memory.wfFrom lo m = true) {a : Nat} {x : Byte}
    (hlo : lo ≤ a) (ha : a < 4096) (hx : x ≠ Memory.unlisted a) :
    Memory.wfFrom lo (Memory.insert (Memory.erase m a) a x) = true := by
  induction m generalizing lo with
  | nil => simpa [Memory.erase, Memory.insert, Memory.wfFrom_cons] using ⟨hlo, ha, hx, rfl⟩
  | cons e m ih =>
    obtain ⟨b, y⟩ := e
    rw [Memory.wfFrom_cons] at hm
    by_cases h : a = b
    · simpa [Memory.erase, h] using h ▸ ih (Memory.wfFrom_mono (by omega) hm.2.2.2) hlo
    · by_cases hl : a < b
      · simp only [Memory.erase, h, if_false, Memory.insert, hl, if_true, Memory.wfFrom_cons]
        exact ⟨hlo, ha, hx, by omega, hm.2.1, hm.2.2.1, Memory.wfFrom_erase hm.2.2.2 a⟩
      · simp only [Memory.erase, h, if_false, Memory.insert, hl, Memory.wfFrom_cons]
        exact ⟨hm.1, hm.2.1, hm.2.2.1, ih hm.2.2.2 (by omega)⟩

/-- A write to an address that exists keeps the canonical form. -/
theorem Memory.wf_set {m : List Host.Cell} (hm : Memory.wf m = true) {a : Nat} (ha : a < 4096) (x : Byte) :
    Memory.wf (Memory.set m a x) = true := by
  unfold Memory.set
  split
  · exact Memory.wfFrom_erase hm a
  · exact Memory.wfFrom_insert_erase hm (Nat.zero_le a) ha ‹_›

theorem Memory.wf_write {m : List Host.Cell} (hm : Memory.wf m = true) {base : Nat} {xs : List Byte}
    (h : base + xs.length ≤ 4096) : Memory.wf (Memory.write m base xs) = true := by
  induction xs generalizing m base with
  | nil => exact hm
  | cons x xs ih =>
    simp only [List.length_cons] at h
    exact ih (Memory.wf_set hm (by omega) x) (by omega)

theorem Memory.get_of_wfFrom {lo a : Nat} {m : List Host.Cell} (hm : Memory.wfFrom lo m = true) (h : a < lo) :
    Memory.get m a = Memory.unlisted a := by
  induction m generalizing lo with
  | nil => rfl
  | cons e m ih =>
    obtain ⟨b, x⟩ := e
    rw [Memory.wfFrom_cons] at hm
    rw [Memory.get_cons, if_neg (by omega)]
    exact ih hm.2.2.2 (by omega)

theorem Memory.wfFrom_ext {lo : Nat} {m m' : List Host.Cell} (hm : Memory.wfFrom lo m = true) (hm' : Memory.wfFrom lo m' = true)
    (h : ∀ a, Memory.get m a = Memory.get m' a) : m = m' := by
  induction m generalizing lo m' with
  | nil =>
    cases m' with
    | nil => rfl
    | cons e m' =>
      obtain ⟨b, x⟩ := e
      rw [Memory.wfFrom_cons] at hm'
      exact absurd (by simpa [Memory.get_nil, Memory.get_cons] using (h b).symm) hm'.2.2.1
  | cons e m ih =>
    obtain ⟨b, x⟩ := e
    rw [Memory.wfFrom_cons] at hm
    cases m' with
    | nil => exact absurd (by simpa [Memory.get_nil, Memory.get_cons] using h b) hm.2.2.1
    | cons e' m' =>
      obtain ⟨c, y⟩ := e'
      rw [Memory.wfFrom_cons] at hm'
      have hbc : b = c := by
        rcases Nat.lt_trichotomy b c with hlt | heq | hgt
        · have := h b
          rw [Memory.get_cons, if_pos rfl, Memory.get_cons, if_neg (by omega),
            Memory.get_of_wfFrom hm'.2.2.2 (by omega)] at this
          exact absurd this hm.2.2.1
        · exact heq
        · have := h c
          rw [Memory.get_cons, if_neg (by omega), Memory.get_of_wfFrom hm.2.2.2 (by omega), Memory.get_cons,
            if_pos rfl] at this
          exact absurd this.symm hm'.2.2.1
      subst hbc
      have hxy : x = y := by simpa [Memory.get_cons] using h b
      subst hxy
      refine congrArg _ (ih hm.2.2.2 hm'.2.2.2 fun a => ?_)
      by_cases ha : a < b + 1
      · rw [Memory.get_of_wfFrom hm.2.2.2 ha, Memory.get_of_wfFrom hm'.2.2.2 ha]
      · simpa [Memory.get_cons, show a ≠ b by omega] using h a

/-- Memories in canonical form that read the same everywhere are the same list. -/
theorem Memory.ext_of_wf {m m' : List Host.Cell} (hm : Memory.wf m = true) (hm' : Memory.wf m' = true)
    (h : ∀ a, Memory.get m a = Memory.get m' a) : m = m' :=
  Memory.wfFrom_ext hm hm' h

end Sys2Proof.Machine
end

