-- ==== Sys2Proof/Laws/State.lean ====
section
/-! SUPPORT. What each update of the state does to each field, one lemma per field per update, so that no later proof unfolds a
record update. -/

namespace Sys2Proof.Machine

@[simp] theorem writeReg_mem (s : State) (r : Reg) (b : Byte) : (writeReg s r b).mem = s.mem := rfl
@[simp] theorem writeReg_v (s : State) (r : Reg) (b : Byte) : (writeReg s r b).v = s.v.set r.val b := rfl
@[simp] theorem writeReg_index (s : State) (r : Reg) (b : Byte) : (writeReg s r b).index = s.index := rfl
@[simp] theorem writeReg_pc (s : State) (r : Reg) (b : Byte) : (writeReg s r b).pc = s.pc := rfl
@[simp] theorem writeReg_stack (s : State) (r : Reg) (b : Byte) : (writeReg s r b).stack = s.stack := rfl
@[simp] theorem writeReg_sp (s : State) (r : Reg) (b : Byte) : (writeReg s r b).sp = s.sp := rfl
@[simp] theorem writeReg_dt (s : State) (r : Reg) (b : Byte) : (writeReg s r b).dt = s.dt := rfl
@[simp] theorem writeReg_st (s : State) (r : Reg) (b : Byte) : (writeReg s r b).st = s.st := rfl
@[simp] theorem writeReg_px (s : State) (r : Reg) (b : Byte) : (writeReg s r b).px = s.px := rfl
@[simp] theorem writeReg_redraw (s : State) (r : Reg) (b : Byte) : (writeReg s r b).redraw = s.redraw := rfl
@[simp] theorem writeReg_key (s : State) (r : Reg) (b : Byte) : (writeReg s r b).key = s.key := rfl
@[simp] theorem writeReg_rndCount (s : State) (r : Reg) (b : Byte) : (writeReg s r b).rndCount = s.rndCount := rfl
@[simp] theorem writeReg_tone (s : State) (r : Reg) (b : Byte) : (writeReg s r b).tone = s.tone := rfl

@[simp] theorem writeIndex_mem (s : State) (a : Word) : (writeIndex s a).mem = s.mem := rfl
@[simp] theorem writeIndex_v (s : State) (a : Word) : (writeIndex s a).v = s.v := rfl
@[simp] theorem writeIndex_index (s : State) (a : Word) : (writeIndex s a).index = a := rfl
@[simp] theorem writeIndex_pc (s : State) (a : Word) : (writeIndex s a).pc = s.pc := rfl
@[simp] theorem writeIndex_stack (s : State) (a : Word) : (writeIndex s a).stack = s.stack := rfl
@[simp] theorem writeIndex_sp (s : State) (a : Word) : (writeIndex s a).sp = s.sp := rfl
@[simp] theorem writeIndex_dt (s : State) (a : Word) : (writeIndex s a).dt = s.dt := rfl
@[simp] theorem writeIndex_st (s : State) (a : Word) : (writeIndex s a).st = s.st := rfl
@[simp] theorem writeIndex_px (s : State) (a : Word) : (writeIndex s a).px = s.px := rfl
@[simp] theorem writeIndex_redraw (s : State) (a : Word) : (writeIndex s a).redraw = s.redraw := rfl
@[simp] theorem writeIndex_key (s : State) (a : Word) : (writeIndex s a).key = s.key := rfl
@[simp] theorem writeIndex_rndCount (s : State) (a : Word) : (writeIndex s a).rndCount = s.rndCount := rfl
@[simp] theorem writeIndex_tone (s : State) (a : Word) : (writeIndex s a).tone = s.tone := rfl

@[simp] theorem writePc_mem (s : State) (a : Word) : (writePc s a).mem = s.mem := rfl
@[simp] theorem writePc_v (s : State) (a : Word) : (writePc s a).v = s.v := rfl
@[simp] theorem writePc_index (s : State) (a : Word) : (writePc s a).index = s.index := rfl
@[simp] theorem writePc_pc (s : State) (a : Word) : (writePc s a).pc = a := rfl
@[simp] theorem writePc_stack (s : State) (a : Word) : (writePc s a).stack = s.stack := rfl
@[simp] theorem writePc_sp (s : State) (a : Word) : (writePc s a).sp = s.sp := rfl
@[simp] theorem writePc_dt (s : State) (a : Word) : (writePc s a).dt = s.dt := rfl
@[simp] theorem writePc_st (s : State) (a : Word) : (writePc s a).st = s.st := rfl
@[simp] theorem writePc_px (s : State) (a : Word) : (writePc s a).px = s.px := rfl
@[simp] theorem writePc_redraw (s : State) (a : Word) : (writePc s a).redraw = s.redraw := rfl
@[simp] theorem writePc_key (s : State) (a : Word) : (writePc s a).key = s.key := rfl
@[simp] theorem writePc_rndCount (s : State) (a : Word) : (writePc s a).rndCount = s.rndCount := rfl
@[simp] theorem writePc_tone (s : State) (a : Word) : (writePc s a).tone = s.tone := rfl

@[simp] theorem advance_mem (s : State) : (advance s).mem = s.mem := rfl
@[simp] theorem advance_v (s : State) : (advance s).v = s.v := rfl
@[simp] theorem advance_index (s : State) : (advance s).index = s.index := rfl
@[simp] theorem advance_pc (s : State) : (advance s).pc = s.pc + 2 := rfl
@[simp] theorem advance_stack (s : State) : (advance s).stack = s.stack := rfl
@[simp] theorem advance_sp (s : State) : (advance s).sp = s.sp := rfl
@[simp] theorem advance_dt (s : State) : (advance s).dt = s.dt := rfl
@[simp] theorem advance_st (s : State) : (advance s).st = s.st := rfl
@[simp] theorem advance_px (s : State) : (advance s).px = s.px := rfl
@[simp] theorem advance_redraw (s : State) : (advance s).redraw = s.redraw := rfl
@[simp] theorem advance_key (s : State) : (advance s).key = s.key := rfl
@[simp] theorem advance_rndCount (s : State) : (advance s).rndCount = s.rndCount := rfl
@[simp] theorem advance_tone (s : State) : (advance s).tone = s.tone := rfl

@[simp] theorem writeBytes_mem (s : State) (base : Nat) (xs : List Byte) : (writeBytes s base xs).mem = Memory.write s.mem base xs := rfl
@[simp] theorem writeBytes_v (s : State) (base : Nat) (xs : List Byte) : (writeBytes s base xs).v = s.v := rfl
@[simp] theorem writeBytes_index (s : State) (base : Nat) (xs : List Byte) : (writeBytes s base xs).index = s.index := rfl
@[simp] theorem writeBytes_pc (s : State) (base : Nat) (xs : List Byte) : (writeBytes s base xs).pc = s.pc := rfl
@[simp] theorem writeBytes_stack (s : State) (base : Nat) (xs : List Byte) : (writeBytes s base xs).stack = s.stack := rfl
@[simp] theorem writeBytes_sp (s : State) (base : Nat) (xs : List Byte) : (writeBytes s base xs).sp = s.sp := rfl
@[simp] theorem writeBytes_dt (s : State) (base : Nat) (xs : List Byte) : (writeBytes s base xs).dt = s.dt := rfl
@[simp] theorem writeBytes_st (s : State) (base : Nat) (xs : List Byte) : (writeBytes s base xs).st = s.st := rfl
@[simp] theorem writeBytes_px (s : State) (base : Nat) (xs : List Byte) : (writeBytes s base xs).px = s.px := rfl
@[simp] theorem writeBytes_redraw (s : State) (base : Nat) (xs : List Byte) : (writeBytes s base xs).redraw = s.redraw := rfl
@[simp] theorem writeBytes_key (s : State) (base : Nat) (xs : List Byte) : (writeBytes s base xs).key = s.key := rfl
@[simp] theorem writeBytes_rndCount (s : State) (base : Nat) (xs : List Byte) : (writeBytes s base xs).rndCount = s.rndCount := rfl
@[simp] theorem writeBytes_tone (s : State) (base : Nat) (xs : List Byte) : (writeBytes s base xs).tone = s.tone := rfl

@[simp] theorem writeRegs_mem (s : State) (bs : List Byte) : (writeRegs s bs).mem = s.mem := rfl
@[simp] theorem writeRegs_v (s : State) (bs : List Byte) : (writeRegs s bs).v = setRegsFrom s.v 0 bs := rfl
@[simp] theorem writeRegs_index (s : State) (bs : List Byte) : (writeRegs s bs).index = s.index := rfl
@[simp] theorem writeRegs_pc (s : State) (bs : List Byte) : (writeRegs s bs).pc = s.pc := rfl
@[simp] theorem writeRegs_stack (s : State) (bs : List Byte) : (writeRegs s bs).stack = s.stack := rfl
@[simp] theorem writeRegs_sp (s : State) (bs : List Byte) : (writeRegs s bs).sp = s.sp := rfl
@[simp] theorem writeRegs_dt (s : State) (bs : List Byte) : (writeRegs s bs).dt = s.dt := rfl
@[simp] theorem writeRegs_st (s : State) (bs : List Byte) : (writeRegs s bs).st = s.st := rfl
@[simp] theorem writeRegs_px (s : State) (bs : List Byte) : (writeRegs s bs).px = s.px := rfl
@[simp] theorem writeRegs_redraw (s : State) (bs : List Byte) : (writeRegs s bs).redraw = s.redraw := rfl
@[simp] theorem writeRegs_key (s : State) (bs : List Byte) : (writeRegs s bs).key = s.key := rfl
@[simp] theorem writeRegs_rndCount (s : State) (bs : List Byte) : (writeRegs s bs).rndCount = s.rndCount := rfl
@[simp] theorem writeRegs_tone (s : State) (bs : List Byte) : (writeRegs s bs).tone = s.tone := rfl

@[simp] theorem timerTick_mem (s : State) : (timerTick s).mem = s.mem := rfl
@[simp] theorem timerTick_v (s : State) : (timerTick s).v = s.v := rfl
@[simp] theorem timerTick_index (s : State) : (timerTick s).index = s.index := rfl
@[simp] theorem timerTick_pc (s : State) : (timerTick s).pc = s.pc := rfl
@[simp] theorem timerTick_stack (s : State) : (timerTick s).stack = s.stack := rfl
@[simp] theorem timerTick_sp (s : State) : (timerTick s).sp = s.sp := rfl
@[simp] theorem timerTick_dt (s : State) : (timerTick s).dt = countDown s.dt := rfl
@[simp] theorem timerTick_st (s : State) : (timerTick s).st = countDown s.st := rfl
@[simp] theorem timerTick_px (s : State) : (timerTick s).px = s.px := rfl
@[simp] theorem timerTick_redraw (s : State) : (timerTick s).redraw = s.redraw := rfl
@[simp] theorem timerTick_key (s : State) : (timerTick s).key = s.key := rfl
@[simp] theorem timerTick_rndCount (s : State) : (timerTick s).rndCount = s.rndCount := rfl
@[simp] theorem timerTick_tone (s : State) : (timerTick s).tone = decide (s.st = 1) := rfl

@[simp] theorem hostSetKey_mem (s : State) (k : Key) (pressed : Bool) : (hostSetKey k pressed s).mem = s.mem := rfl
@[simp] theorem hostSetKey_v (s : State) (k : Key) (pressed : Bool) : (hostSetKey k pressed s).v = s.v := rfl
@[simp] theorem hostSetKey_index (s : State) (k : Key) (pressed : Bool) : (hostSetKey k pressed s).index = s.index := rfl
@[simp] theorem hostSetKey_pc (s : State) (k : Key) (pressed : Bool) : (hostSetKey k pressed s).pc = s.pc := rfl
@[simp] theorem hostSetKey_stack (s : State) (k : Key) (pressed : Bool) : (hostSetKey k pressed s).stack = s.stack := rfl
@[simp] theorem hostSetKey_sp (s : State) (k : Key) (pressed : Bool) : (hostSetKey k pressed s).sp = s.sp := rfl
@[simp] theorem hostSetKey_dt (s : State) (k : Key) (pressed : Bool) : (hostSetKey k pressed s).dt = s.dt := rfl
@[simp] theorem hostSetKey_st (s : State) (k : Key) (pressed : Bool) : (hostSetKey k pressed s).st = s.st := rfl
@[simp] theorem hostSetKey_px (s : State) (k : Key) (pressed : Bool) : (hostSetKey k pressed s).px = s.px := rfl
@[simp] theorem hostSetKey_redraw (s : State) (k : Key) (pressed : Bool) : (hostSetKey k pressed s).redraw = s.redraw := rfl
@[simp] theorem hostSetKey_key (s : State) (k : Key) (pressed : Bool) : (hostSetKey k pressed s).key = s.key.set k.val pressed := rfl
@[simp] theorem hostSetKey_rndCount (s : State) (k : Key) (pressed : Bool) : (hostSetKey k pressed s).rndCount = s.rndCount := rfl
@[simp] theorem hostSetKey_tone (s : State) (k : Key) (pressed : Bool) : (hostSetKey k pressed s).tone = s.tone := rfl

@[simp] theorem hostClearRedraw_mem (s : State) : (hostClearRedraw s).mem = s.mem := rfl
@[simp] theorem hostClearRedraw_v (s : State) : (hostClearRedraw s).v = s.v := rfl
@[simp] theorem hostClearRedraw_index (s : State) : (hostClearRedraw s).index = s.index := rfl
@[simp] theorem hostClearRedraw_pc (s : State) : (hostClearRedraw s).pc = s.pc := rfl
@[simp] theorem hostClearRedraw_stack (s : State) : (hostClearRedraw s).stack = s.stack := rfl
@[simp] theorem hostClearRedraw_sp (s : State) : (hostClearRedraw s).sp = s.sp := rfl
@[simp] theorem hostClearRedraw_dt (s : State) : (hostClearRedraw s).dt = s.dt := rfl
@[simp] theorem hostClearRedraw_st (s : State) : (hostClearRedraw s).st = s.st := rfl
@[simp] theorem hostClearRedraw_px (s : State) : (hostClearRedraw s).px = s.px := rfl
@[simp] theorem hostClearRedraw_redraw (s : State) : (hostClearRedraw s).redraw = false := rfl
@[simp] theorem hostClearRedraw_key (s : State) : (hostClearRedraw s).key = s.key := rfl
@[simp] theorem hostClearRedraw_rndCount (s : State) : (hostClearRedraw s).rndCount = s.rndCount := rfl
@[simp] theorem hostClearRedraw_tone (s : State) : (hostClearRedraw s).tone = s.tone := rfl

@[simp] theorem skipIf_mem (c : Bool) (s : State) : (skipIf c s).mem = s.mem := by cases c <;> rfl
@[simp] theorem skipIf_v (c : Bool) (s : State) : (skipIf c s).v = s.v := by cases c <;> rfl
@[simp] theorem skipIf_index (c : Bool) (s : State) : (skipIf c s).index = s.index := by cases c <;> rfl
@[simp] theorem skipIf_stack (c : Bool) (s : State) : (skipIf c s).stack = s.stack := by cases c <;> rfl
@[simp] theorem skipIf_sp (c : Bool) (s : State) : (skipIf c s).sp = s.sp := by cases c <;> rfl
@[simp] theorem skipIf_dt (c : Bool) (s : State) : (skipIf c s).dt = s.dt := by cases c <;> rfl
@[simp] theorem skipIf_st (c : Bool) (s : State) : (skipIf c s).st = s.st := by cases c <;> rfl
@[simp] theorem skipIf_px (c : Bool) (s : State) : (skipIf c s).px = s.px := by cases c <;> rfl
@[simp] theorem skipIf_redraw (c : Bool) (s : State) : (skipIf c s).redraw = s.redraw := by cases c <;> rfl
@[simp] theorem skipIf_key (c : Bool) (s : State) : (skipIf c s).key = s.key := by cases c <;> rfl
@[simp] theorem skipIf_rndCount (c : Bool) (s : State) : (skipIf c s).rndCount = s.rndCount := by cases c <;> rfl
@[simp] theorem skipIf_tone (c : Bool) (s : State) : (skipIf c s).tone = s.tone := by cases c <;> rfl

theorem skipIf_pc (c : Bool) (s : State) : (skipIf c s).pc = if c then s.pc + 4 else s.pc + 2 := by cases c <;> rfl

@[simp] theorem readReg_writeIndex (s : State) (a : Word) (r : Reg) : readReg (writeIndex s a) r = readReg s r := rfl
@[simp] theorem readReg_writePc (s : State) (a : Word) (r : Reg) : readReg (writePc s a) r = readReg s r := rfl
@[simp] theorem readReg_advance (s : State) (r : Reg) : readReg (advance s) r = readReg s r := rfl
@[simp] theorem readReg_writeBytes (s : State) (base : Nat) (xs : List Byte) (r : Reg) : readReg (writeBytes s base xs) r = readReg s r := rfl
@[simp] theorem readReg_timerTick (s : State) (r : Reg) : readReg (timerTick s) r = readReg s r := rfl
@[simp] theorem readReg_hostSetKey (s : State) (k : Key) (pressed : Bool) (r : Reg) : readReg (hostSetKey k pressed s) r = readReg s r := rfl
@[simp] theorem readReg_hostClearRedraw (s : State) (r : Reg) : readReg (hostClearRedraw s) r = readReg s r := rfl
@[simp] theorem readReg_skipIf (c : Bool) (s : State) (r : Reg) : readReg (skipIf c s) r = readReg s r := by cases c <;> rfl

end Sys2Proof.Machine
end

