-- ==== Sys2Proof/Laws/Ops.lean ====
section
/-! SUPPORT. What each shared operation does, said once: register and memory access, the range check, the call stack, blocks of
registers, pixels, keys and timers. -/

namespace Sys2Proof.Machine

/-! ### Registers -/

theorem readReg_writeReg (s : State) (r q : Reg) (b : Byte) :
    readReg (writeReg s r b) q = if q = r then b else readReg s q := by
  by_cases h : q = r
  · subst h; simp [readReg]
  · have : r.val ≠ q.val := fun e => h (Fin.ext e.symm)
    simp [readReg, h, this]

@[simp] theorem readReg_writeReg_self (s : State) (r : Reg) (b : Byte) : readReg (writeReg s r b) r = b := by
  simp [readReg_writeReg]

theorem readReg_writeReg_other (s : State) {r q : Reg} (b : Byte) (h : q ≠ r) :
    readReg (writeReg s r b) q = readReg s q := by simp [readReg_writeReg, h]

/-- The result is lost exactly where `x` is 15 (R133). -/
theorem readReg_writeResultThenFlag (s : State) (x q : Reg) (result flag : Byte) :
    readReg (writeResultThenFlag s x result flag) q =
      if q = flagReg then flag else if q = x then result else readReg s q := by
  simp [writeResultThenFlag, readReg_writeReg]

theorem setRegsFrom_getElem (v : Vector Byte 16) (k : Nat) (bs : List Byte) (r : Nat) (h : r < 16) :
    (setRegsFrom v k bs)[r] = if k ≤ r ∧ r < k + bs.length then bs.getD (r - k) 0 else v[r] := by
  induction bs generalizing v k with
  | nil => simp [setRegsFrom]
  | cons b bs ih =>
    rw [setRegsFrom, ih, Vector.getElem_setIfInBounds]
    by_cases hr : k = r
    · subst hr; simp
    · by_cases h2 : k + 1 ≤ r ∧ r < k + 1 + bs.length
      · have h3 : k ≤ r ∧ r < k + (b :: bs).length := by simp; omega
        have h4 : r - k = (r - (k + 1)) + 1 := by omega
        rw [if_pos h2, if_pos h3, h4, List.getD_cons_succ]
      · have h3 : ¬ (k ≤ r ∧ r < k + (b :: bs).length) := by simp; omega
        rw [if_neg h2, if_neg h3, if_neg hr]

/-- `V[r]` is the byte `r` of the list where it has one, and otherwise as before (R146). -/
theorem readReg_writeRegs (s : State) (bs : List Byte) (r : Reg) :
    readReg (writeRegs s bs) r = if r.val < bs.length then bs.getD r.val 0 else readReg s r := by
  simp [readReg, setRegsFrom_getElem]

@[simp] theorem length_regsUpTo (s : State) (x : Reg) : (regsUpTo s x).length = x.val + 1 := by
  simp [regsUpTo]

/-- Byte `k` of the dump is `V[k]` (R145). -/
theorem regsUpTo_getD (s : State) (x k : Reg) (h : k.val ≤ x.val) : (regsUpTo s x).getD k.val 0 = readReg s k := by
  simp [regsUpTo, readReg, List.getD, show k.val < x.val + 1 by omega]

theorem mem_regsTo (x r : Reg) : r ∈ regsTo x ↔ r.val ≤ x.val := by simp [regsTo]

/-! ### The range check (R53) -/

theorem outOfRange_eq_false (base n : Nat) : outOfRange base n = false ↔ n = 0 ∨ base + n ≤ 4096 := by
  simp [outOfRange]; omega

theorem outOfRange_eq_true (base n : Nat) : outOfRange base n = true ↔ 0 < n ∧ 4096 < base + n := by
  simp [outOfRange]; omega

/-- In range, the check is transparent. -/
theorem checkSpan_of_fits {base n : Nat} (h : n = 0 ∨ base + n ≤ 4096) (s : State) (r : Result) :
    checkSpan s base n r = r := by
  simp [checkSpan, (outOfRange_eq_false base n).2 h]

/-- Out of range, the check raises `AddressError` whatever the instruction would do. -/
theorem checkSpan_of_exceeds {base n : Nat} (h0 : 0 < n) (h : 4096 < base + n) (s : State) (r : Result) :
    checkSpan s base n r = .fault (.addressError s.pc (base + n - 1)) := by
  simp [checkSpan, (outOfRange_eq_true base n).2 ⟨h0, h⟩, raise]

/-- Everything the check can do. -/
theorem checkSpan_cases (s : State) (base n : Nat) (r : Result) :
    ((n = 0 ∨ base + n ≤ 4096) ∧ checkSpan s base n r = r) ∨
      (0 < n ∧ 4096 < base + n ∧ checkSpan s base n r = .fault (.addressError s.pc (base + n - 1))) := by
  by_cases h : n = 0 ∨ base + n ≤ 4096
  · exact .inl ⟨h, checkSpan_of_fits h s r⟩
  · exact .inr ⟨by omega, by omega, checkSpan_of_exceeds (by omega) (by omega) s r⟩

/-! ### The call stack (R25, R26) -/

theorem pushPc_of_lt (s : State) (h : s.sp.val < 16) :
    pushPc s = some { s with stack := s.stack.set s.sp.val s.pc, sp := ⟨s.sp.val + 1, by omega⟩ } := by
  simp [pushPc, h]

theorem pushPc_of_full (s : State) (h : s.sp = 16) : pushPc s = none := by simp [pushPc, h]

theorem popSlot_of_pos (s : State) (h : 0 < s.sp.val) :
    popSlot s = some (s.stack[s.sp.val - 1], { s with sp := ⟨s.sp.val - 1, by omega⟩ }) := by
  simp [popSlot, h]

theorem popSlot_of_empty (s : State) (h : s.sp = 0) : popSlot s = none := by simp [popSlot, h]

/-! ### Pixels (R29) -/

theorem getPixel_flipPixel (p : Pixels) (X X' : Fin 64) (Y Y' : Fin 32) :
    getPixel (flipPixel p X Y) X' Y' = if X' = X ∧ Y' = Y then !getPixel p X Y else getPixel p X' Y' := by
  by_cases hy : Y' = Y
  · subst hy
    by_cases hx : X' = X
    · subst hx; simp [getPixel, flipPixel]
    · have : X.val ≠ X'.val := fun e => hx (Fin.ext e.symm)
      simp [getPixel, flipPixel, hx, this]
  · have : Y.val ≠ Y'.val := fun e => hy (Fin.ext e.symm)
    simp [getPixel, flipPixel, hy, this]

/-- Two pixel buffers with the same pixels are the same. -/
theorem Pixels_ext {p q : Pixels} (h : ∀ X Y, getPixel p X Y = getPixel q X Y) : p = q := by
  ext Y hY X hX
  simpa [getPixel] using h ⟨X, hX⟩ ⟨Y, hY⟩

/-! ### Keys (R33, R164) -/

theorem keyOfReg_of_lt (s : State) (x : Reg) (h : (readReg s x).toNat < 16) :
    keyOfReg s x = some ⟨(readReg s x).toNat, h⟩ := by simp [keyOfReg, h]

theorem keyOfReg_of_ge (s : State) (x : Reg) (h : 16 ≤ (readReg s x).toNat) : keyOfReg s x = none := by
  simp [keyOfReg, Nat.not_lt.2 h]

theorem lowestKey_eq_none (s : State) : lowestKey s = none ↔ ∀ k, keyDown s k = false := by
  simp [lowestKey, List.find?_eq_none]

theorem lowestKey_eq_some (s : State) (k : Key) :
    lowestKey s = some k ↔ keyDown s k = true ∧ ∀ j, j < k → keyDown s j = false := by
  constructor
  · intro h
    obtain ⟨hk, l₁, l₂, hl, hn⟩ := List.find?_eq_some_iff_append.1 h
    refine ⟨hk, fun j hj => ?_⟩
    have hsorted : (List.finRange 16).Pairwise (· < ·) := List.pairwise_lt_finRange 16
    rw [hl, List.pairwise_append] at hsorted
    have hj' : j ∈ l₁ ++ k :: l₂ := hl ▸ List.mem_finRange j
    rcases List.mem_append.1 hj' with h1 | h1
    · simpa using hn j h1
    · rcases List.mem_cons.1 h1 with h2 | h2
      · exact absurd (h2 ▸ hj) (lt_irrefl k)
      · exact absurd ((List.pairwise_cons.1 hsorted.2.1).1 j h2) (not_lt_of_gt hj)
  · rintro ⟨hk, hlt⟩
    cases h : lowestKey s with
    | none => exact absurd ((lowestKey_eq_none s).1 h k) (by simp [hk])
    | some j =>
      obtain ⟨hj, l₁, l₂, hl, hn⟩ := List.find?_eq_some_iff_append.1 h
      rcases lt_trichotomy j k with h1 | h1 | h1
      · exact absurd (hlt j h1) (by simp [hj])
      · exact congrArg some h1
      · have hsorted : (List.finRange 16).Pairwise (· < ·) := List.pairwise_lt_finRange 16
        rw [hl, List.pairwise_append] at hsorted
        have hk' : k ∈ l₁ ++ j :: l₂ := hl ▸ List.mem_finRange k
        rcases List.mem_append.1 hk' with h2 | h2
        · exact absurd (hn k h2) (by simp [hk])
        · rcases List.mem_cons.1 h2 with h3 | h3
          · exact absurd (h3 ▸ h1) (lt_irrefl _)
          · exact absurd ((List.pairwise_cons.1 hsorted.2.1).1 k h3) (not_lt_of_gt h1)

/-! ### Timers (R96) -/

/-- A timer at 0 stays, another goes down by 1. -/
theorem countDown_toNat (t : Byte) : (countDown t).toNat = t.toNat - 1 := by
  by_cases h : t = 0
  · simp [countDown, h]
  · have h0 : t.toNat ≠ 0 := fun e => h (BitVec.eq_of_toNat_eq e)
    have hb := t.isLt
    have : (t - 1).toNat = t.toNat - 1 := by
      rw [BitVec.toNat_sub_of_le (by simp only [BitVec.le_def]; simp; omega)]; simp
    rw [countDown, if_neg h, this]

/-! ### Words -/

theorem pc_add_toNat (pc : Word) (k : Nat) (h : k < 65536) : (pc + BitVec.ofNat 16 k).toNat = (pc.toNat + k) % 65536 := by
  simp [BitVec.toNat_add, Nat.mod_eq_of_lt h]

theorem zextAddr_toNat (nnn : Addr) : (zextAddr nnn).toNat = nnn.toNat := by
  have := nnn.isLt
  simp [zextAddr]; omega

theorem zextReg_toNat (s : State) (r : Reg) : (zextReg s r).toNat = (readReg s r).toNat := by
  have := (readReg s r).isLt
  simp [zextReg]; omega

end Sys2Proof.Machine
end

