-- ==== Sys2Proof/Laws/Cycle.lean ====
section
/-! SUPPORT. Everything the fetch, the dispatch and the step can do, said once (spec/40_cycle.md R90 to R95). -/

namespace Sys2Proof.Machine

/-- The three things steps 1 to 3 of a cycle can do: the fetch is out of range, the word is unrecognised, or the decoded
instruction is executed (R177). -/
theorem runInstruction_cases (s : State) :
    (0xFFE < s.pc.toNat ∧ runInstruction s = .fault (.addressError s.pc (s.pc.toNat + 1))) ∨
      (s.pc.toNat ≤ 0xFFE ∧ (∃ e, decodeWord (fetchedWord s) = .error e) ∧
        runInstruction s = .fault (.decodeError s.pc (fetchedWord s))) ∨
      ∃ i, Executes s i ∧ runInstruction s = exec i s := by
  rcases checkSpan_cases s s.pc.toNat 2 (dispatchWord (fetchedWord s) s) with ⟨h, e⟩ | ⟨-, h, e⟩
  · have hpc : s.pc.toNat ≤ 0xFFE := by omega
    refine .inr ?_
    cases hd : decodeWord (fetchedWord s) with
    | error r => exact .inl ⟨hpc, ⟨r, rfl⟩, e.trans (by simp [dispatchWord, hd, raise])⟩
    | ok i => exact .inr ⟨i, ⟨hpc, hd⟩, e.trans (by simp [dispatchWord, hd])⟩
  · exact .inl ⟨by omega, e⟩

/-- A step answers a next state only when the decoded instruction does, and then it is that state with the timers ticked (R94). -/
theorem step_next {s t : State} (h : step s = .next t) :
    ∃ i u, Executes s i ∧ exec i s = .next u ∧ t = timerTick u := by
  unfold step cycle at h
  rcases runInstruction_cases s with ⟨-, e⟩ | ⟨-, -, e⟩ | ⟨i, hi, e⟩
  · simp [e, finishCycle, stepOfReport] at h
  · simp [e, finishCycle, stepOfReport] at h
  · cases hx : exec i s with
    | next u =>
      refine ⟨i, u, hi, hx, ?_⟩
      simpa [e, hx, finishCycle, stepOfReport] using h.symm
    | fault f => simp [e, hx, finishCycle, stepOfReport] at h
    | refused r => simp [e, hx, finishCycle, stepOfReport] at h

/-- A cycle's outcome is `Ok` exactly when its instruction completed; the tick then sees what it wrote (R94, R96). -/
theorem cycle_of_next {s u : State} (h : runInstruction s = .next u) : cycle s = { after := timerTick u, outcome := .ok } := by
  simp [cycle, h, finishCycle]

/-- After an error outcome the tick is all that has happened (R95). -/
theorem cycle_of_fault {s : State} {f : Fault} (h : runInstruction s = .fault f) :
    cycle s = { after := timerTick s, outcome := .error f } := by
  simp [cycle, h, finishCycle]

end Sys2Proof.Machine
end

