-- ==== Sys2Proof/Laws/Encoding.lean ====
section
/-! SUPPORT. The fields of the words the encoder builds (spec/30_encoding.md R71 to R74), one lemma per field per format. -/

namespace Sys2Proof

theorem wordA_getLsbD (g : Nibble) (nnn : Addr) (k : Nat) :
    (wordA g nnn).getLsbD k = if k < 12 then nnn.getLsbD k else g.getLsbD (k - 12) :=
  BitVec.getLsbD_append

theorem wordXB_getLsbD (g : Nibble) (x : Reg) (b : Byte) (k : Nat) :
    (wordXB g x b).getLsbD k =
      if k < 8 then b.getLsbD k else if k < 12 then (BitVec.ofFin x : Nibble).getLsbD (k - 8) else g.getLsbD (k - 12) := by
  refine (BitVec.getLsbD_append (x := g ++ (BitVec.ofFin x : Nibble)) (y := b)).trans ?_
  rw [BitVec.getLsbD_append]
  by_cases h : k < 8
  · simp [h]
  · by_cases h' : k < 12
    · simp only [h, h', if_false, if_true, show k - 8 < 4 by omega]
    · simp only [h, h', if_false, show ¬ k - 8 < 4 by omega, show k - 8 - 4 = k - 12 by omega]

theorem wordXYN_getLsbD (g : Nibble) (x : Reg) (y n : Nibble) (k : Nat) :
    (wordXYN g x y n).getLsbD k =
      if k < 4 then n.getLsbD k else if k < 8 then y.getLsbD (k - 4)
      else if k < 12 then (BitVec.ofFin x : Nibble).getLsbD (k - 8) else g.getLsbD (k - 12) := by
  refine (BitVec.getLsbD_append (x := g ++ (BitVec.ofFin x : Nibble) ++ y) (y := n)).trans ?_
  rw [BitVec.getLsbD_append, BitVec.getLsbD_append]
  by_cases h : k < 4
  · simp [h]
  · by_cases h' : k < 8
    · simp only [h, h', if_false, if_true, show k - 4 < 4 by omega]
    · by_cases h'' : k < 12
      · simp only [h, h', h'', if_false, if_true, show ¬ k - 4 < 4 by omega, show k - 8 < 4 by omega,
          show k - 4 - 4 = k - 8 by omega]
      · simp only [h, h', h'', if_false, show ¬ k - 4 < 4 by omega, show ¬ k - 4 - 4 < 4 by omega,
          show k - 4 - 4 - 4 = k - 12 by omega]

theorem groupOf_wordA (g : Nibble) (nnn : Addr) : groupOf (wordA g nnn) = g := by
  ext k hk; simp [groupOf, wordA_getLsbD, hk]

theorem fieldNNN_wordA (g : Nibble) (nnn : Addr) : fieldNNN (wordA g nnn) = nnn := by
  ext k hk; simp [fieldNNN, wordA_getLsbD, hk]

theorem groupOf_wordXB (g : Nibble) (x : Reg) (b : Byte) : groupOf (wordXB g x b) = g := by
  ext k hk; simp [groupOf, wordXB_getLsbD, show ¬ 12 + k < 8 by omega, hk]

theorem fieldX_wordXB (g : Nibble) (x : Reg) (b : Byte) : fieldX (wordXB g x b) = x := by
  suffices h : BitVec.extractLsb' 8 4 (wordXB g x b) = BitVec.ofFin x by simp [fieldX, h]
  ext k hk; simp [wordXB_getLsbD, show 8 + k < 12 by omega, hk]

theorem fieldNN_wordXB (g : Nibble) (x : Reg) (b : Byte) : fieldNN (wordXB g x b) = b := by
  ext k hk; simp [fieldNN, wordXB_getLsbD, hk]

theorem groupOf_wordXYN (g : Nibble) (x : Reg) (y n : Nibble) : groupOf (wordXYN g x y n) = g := by
  ext k hk; simp [groupOf, wordXYN_getLsbD, show ¬ 12 + k < 4 by omega, show ¬ 12 + k < 8 by omega, hk]

theorem fieldX_wordXYN (g : Nibble) (x : Reg) (y n : Nibble) : fieldX (wordXYN g x y n) = x := by
  suffices h : BitVec.extractLsb' 8 4 (wordXYN g x y n) = BitVec.ofFin x by simp [fieldX, h]
  ext k hk; simp [wordXYN_getLsbD, show ¬ 8 + k < 4 by omega, show 8 + k < 12 by omega, hk]

theorem nibbleY_wordXYN (g : Nibble) (x : Reg) (y n : Nibble) : nibbleY (wordXYN g x y n) = y := by
  ext k hk; simp [nibbleY, wordXYN_getLsbD, show 4 + k < 8 by omega, hk]

theorem fieldY_wordXYN (g : Nibble) (x y : Reg) (n : Nibble) : fieldY (wordXYN g x (BitVec.ofFin y) n) = y := by
  have h := nibbleY_wordXYN g x (BitVec.ofFin y) n
  simp only [nibbleY] at h
  simp [fieldY, h]

theorem fieldN_wordXYN (g : Nibble) (x : Reg) (y n : Nibble) : fieldN (wordXYN g x y n) = n := by
  ext k hk; simp [fieldN, wordXYN_getLsbD, hk]

/-- Memory order and word order are inverse (R54). -/
theorem wordOfBytes_bytesOfWord (w : Word) : wordOfBytes (w.extractLsb' 8 8) (w.extractLsb' 0 8) = w := by
  apply BitVec.eq_of_getLsbD_eq
  intro k hk
  refine BitVec.getLsbD_append.trans ?_
  by_cases h : k < 8
  · simp [h]
  · simp [h, show k - 8 < 8 by omega, show 8 + (k - 8) = k by omega]

/-! ### What the masks of R81 keep of a word -/

theorem wordA_and_group (g : Nibble) (nnn : Addr) : wordA g nnn &&& 0xF000 = wordA g 0 := by
  apply BitVec.eq_of_getLsbD_eq
  intro k hk
  rw [BitVec.getLsbD_and, wordA_getLsbD, wordA_getLsbD]
  interval_cases k <;> simp

theorem wordXB_and_group (g : Nibble) (x : Reg) (b : Byte) : wordXB g x b &&& 0xF000 = wordXB g 0 0 := by
  apply BitVec.eq_of_getLsbD_eq
  intro k hk
  rw [BitVec.getLsbD_and, wordXB_getLsbD, wordXB_getLsbD]
  interval_cases k <;> simp

theorem wordXB_and_byte (g : Nibble) (x : Reg) (b : Byte) : wordXB g x b &&& 0xF0FF = wordXB g 0 b := by
  apply BitVec.eq_of_getLsbD_eq
  intro k hk
  rw [BitVec.getLsbD_and, wordXB_getLsbD, wordXB_getLsbD]
  interval_cases k <;> simp

theorem wordXYN_and_group (g : Nibble) (x : Reg) (y n : Nibble) : wordXYN g x y n &&& 0xF000 = wordXYN g 0 0 0 := by
  apply BitVec.eq_of_getLsbD_eq
  intro k hk
  rw [BitVec.getLsbD_and, wordXYN_getLsbD, wordXYN_getLsbD]
  interval_cases k <;> simp

theorem wordXYN_and_nibble (g : Nibble) (x : Reg) (y n : Nibble) : wordXYN g x y n &&& 0xF00F = wordXYN g 0 0 n := by
  apply BitVec.eq_of_getLsbD_eq
  intro k hk
  rw [BitVec.getLsbD_and, wordXYN_getLsbD, wordXYN_getLsbD]
  interval_cases k <;> simp

end Sys2Proof
end

