-- ==== Sys2Proof/Laws/Graphics.lean ====
section
/-! SUPPORT. What a draw does, pixel by pixel (spec/44_graphics.md R152): the covered pixels are all different, so each flips
once and a collision is a covered pixel that was 1. -/

namespace Sys2Proof.Machine

theorem getPixel_blankScreen (X : Fin 64) (Y : Fin 32) : getPixel blankScreen X Y = false := by
  simp [getPixel, blankScreen]

/-- Folding `drawPoint` over different points, from any collision bit. -/
theorem foldl_drawPoint (points : List (Fin 64 × Fin 32)) (hn : points.Nodup) (p : Pixels) (c : Bool) :
    (∀ X Y, getPixel (points.foldl drawPoint (p, c)).1 X Y = (getPixel p X Y ^^ decide ((X, Y) ∈ points))) ∧
      ((points.foldl drawPoint (p, c)).2 = true ↔ c = true ∨ ∃ q ∈ points, getPixel p q.1 q.2 = true) := by
  induction points generalizing p c with
  | nil => simp
  | cons q points ih =>
    obtain ⟨hq, hn⟩ := List.nodup_cons.1 hn
    obtain ⟨ih1, ih2⟩ := ih hn (flipPixel p q.1 q.2) (c || getPixel p q.1 q.2)
    refine ⟨fun X Y => ?_, ?_⟩
    · refine (ih1 X Y).trans ?_
      rw [getPixel_flipPixel]
      by_cases h : X = q.1 ∧ Y = q.2
      · have he : (X, Y) = q := Prod.ext h.1 h.2
        obtain ⟨rfl, rfl⟩ := h
        simp [hq]
      · have he : (X, Y) ≠ q := fun e => h ⟨congrArg Prod.fst e, congrArg Prod.snd e⟩
        simp [h, he]
    · refine ih2.trans ?_
      have hsame : ∀ q' ∈ points, getPixel (flipPixel p q.1 q.2) q'.1 q'.2 = getPixel p q'.1 q'.2 := by
        intro q' hq'
        rw [getPixel_flipPixel, if_neg]
        rintro ⟨h1, h2⟩
        exact hq (by rwa [show q = q' from Prod.ext h1.symm h2.symm])
      constructor
      · rintro (h | ⟨q', hq', h⟩)
        · rcases Bool.or_eq_true .. ▸ h with h | h
          · exact .inl h
          · exact .inr ⟨q, List.mem_cons_self, h⟩
        · exact .inr ⟨q', List.mem_cons_of_mem _ hq', hsame q' hq' ▸ h⟩
      · rintro (h | ⟨q', hq', h⟩)
        · exact .inl (by simp [h])
        · rcases List.mem_cons.1 hq' with rfl | hq'
          · exact .inl (by simp [h])
          · exact .inr ⟨q', hq', (hsame q' hq').symm ▸ h⟩

/-- A pixel after a draw: flipped where a point covers it, as before elsewhere. -/
theorem getPixel_drawPoints {points : List (Fin 64 × Fin 32)} (hn : points.Nodup) (p : Pixels) (X : Fin 64) (Y : Fin 32) :
    getPixel (drawPoints p points).1 X Y = (getPixel p X Y ^^ decide ((X, Y) ∈ points)) :=
  (foldl_drawPoint points hn p false).1 X Y

/-- The collision bit of a draw: some covered pixel was 1. -/
theorem collision_drawPoints {points : List (Fin 64 × Fin 32)} (hn : points.Nodup) (p : Pixels) :
    (drawPoints p points).2 = true ↔ ∃ q ∈ points, getPixel p q.1 q.2 = true :=
  (foldl_drawPoint points hn p false).2.trans (by simp)

/-! ### The points of a sprite -/

theorem mem_setColumns (b : Byte) (c : Nat) : c ∈ setColumns b ↔ c < 8 ∧ b.getLsbD (7 - c) = true := by
  rw [setColumns, List.mem_filter, show [0, 1, 2, 3, 4, 5, 6, 7] = List.range 8 from rfl, List.mem_range]

theorem nodup_setColumns (b : Byte) : (setColumns b).Nodup :=
  List.Nodup.filter _ (by decide)

theorem spriteCol_inj {vx : Byte} {c d : Nat} (hc : c < 8) (hd : d < 8) (h : spriteCol vx c = spriteCol vx d) : c = d := by
  have := congrArg Fin.val h
  simp only [spriteCol, Fin.val_ofNat] at this
  omega

theorem spriteRow_inj {vy : Byte} {r q : Nat} (h : spriteRow vy r = spriteRow vy q) : r % 32 = q % 32 := by
  have := congrArg Fin.val h
  simp only [spriteRow, Fin.val_ofNat] at this
  omega

/-- Which points a sprite covers. -/
theorem mem_spritePoints (vx vy : Byte) (r : Nat) (bs : List Byte) (X : Fin 64) (Y : Fin 32) :
    (X, Y) ∈ spritePoints vx vy r bs ↔
      ∃ j c, j < bs.length ∧ c < 8 ∧ (bs.getD j 0).getLsbD (7 - c) = true ∧ X = spriteCol vx c ∧ Y = spriteRow vy (r + j) := by
  induction bs generalizing r with
  | nil => simp [spritePoints]
  | cons b bs ih =>
    rw [spritePoints, List.mem_append, ih, List.mem_map]
    constructor
    · rintro (⟨c, hc, he⟩ | ⟨j, c, hj, hc, hb, hX, hY⟩)
      · obtain ⟨hc, hb⟩ := (mem_setColumns b c).1 hc
        exact ⟨0, c, by simp, hc, by simpa using hb, (congrArg Prod.fst he).symm, (congrArg Prod.snd he).symm⟩
      · exact ⟨j + 1, c, by simpa using hj, hc, by simpa using hb, hX, by rw [hY]; congr 1; omega⟩
    · rintro ⟨j, c, hj, hc, hb, hX, hY⟩
      cases j with
      | zero => exact .inl ⟨c, (mem_setColumns b c).2 ⟨hc, by simpa using hb⟩, by simp [hX, hY]⟩
      | succ j =>
        exact .inr ⟨j, c, by simpa using hj, hc, by simpa using hb, hX, by rw [hY]; congr 1; omega⟩

/-- No pixel is visited twice in one draw (R152). -/
theorem nodup_spritePoints (vx vy : Byte) (r : Nat) (bs : List Byte) (h : bs.length ≤ 32) :
    (spritePoints vx vy r bs).Nodup := by
  induction bs generalizing r with
  | nil => simp [spritePoints]
  | cons b bs ih =>
    simp only [List.length_cons] at h
    rw [spritePoints, List.nodup_append]
    refine ⟨?_, ih (r + 1) (by omega), ?_⟩
    · refine List.Nodup.map_on (fun c hc d hd he => ?_) (nodup_setColumns b)
      exact spriteCol_inj ((mem_setColumns b c).1 hc).1 ((mem_setColumns b d).1 hd).1 (congrArg Prod.fst he)
    · rintro p hp q hq rfl
      obtain ⟨c, -, rfl⟩ := List.mem_map.1 hp
      obtain ⟨j, d, hj, -, -, -, hY⟩ := (mem_spritePoints ..).1 hq
      have := spriteRow_inj hY
      omega

theorem nodup_drawnPoints (x y : Reg) (n : Nibble) (s : State) : (drawnPoints x y n s).Nodup := by
  have := n.isLt
  exact nodup_spritePoints _ _ _ _ (by simp [readBytes]; omega)

/-- The points `draw` covers are the pixels of `Covered`. -/
theorem mem_drawnPoints (x y : Reg) (n : Nibble) (s : State) (X : Fin 64) (Y : Fin 32) :
    (X, Y) ∈ drawnPoints x y n s ↔ Covered x y n s X Y := by
  rw [drawnPoints, mem_spritePoints]
  refine exists_congr fun j => exists_congr fun c => ?_
  simp only [readBytes, Memory.length_read, Nat.zero_add, Fin.ext_iff, spriteCol, spriteRow, Fin.val_ofNat]
  refine and_congr_right fun hj => ?_
  have : (Memory.read s.mem (indexAddr s) n.toNat).getD j 0 = Memory.get s.mem (indexAddr s + j) := by
    rw [List.getD_eq_getElem _ _ (by simpa using hj), Memory.getElem_read]
  rw [this]

end Sys2Proof.Machine
end

