-- ==== Sys2Proof/Laws/PerInstr.lean ====
section
/-! SUPPORT. A statement about every instruction as syntax, one lemma per constructor: its word lies in its own row of the
opcode map (spec/30_encoding.md R81). -/

namespace Sys2Proof.Laws.RowMatch

/-- The word of an instruction, under the mask of its row, is the match of its row (R81). -/
def Statement (i : Instr) : Prop := encode i &&& (matchMask i).2 = (matchMask i).1

theorem clearScreen : Statement .clearScreen := by
  unfold Statement; decide

theorem ret : Statement .ret := by
  unfold Statement; decide

theorem jump (nnn : Addr) : Statement (.jump nnn) :=
  (wordA_and_group ..).trans rfl

theorem call (nnn : Addr) : Statement (.call nnn) :=
  (wordA_and_group ..).trans rfl

theorem skipEqImm (x : Reg) (nn : Byte) : Statement (.skipEqImm x nn) :=
  (wordXB_and_group ..).trans rfl

theorem skipNeqImm (x : Reg) (nn : Byte) : Statement (.skipNeqImm x nn) :=
  (wordXB_and_group ..).trans rfl

theorem skipEqReg (x y : Reg) (ignored : Nibble) : Statement (.skipEqReg x y ignored) :=
  (wordXYN_and_group ..).trans rfl

theorem setImm (x : Reg) (nn : Byte) : Statement (.setImm x nn) :=
  (wordXB_and_group ..).trans rfl

theorem addImm (x : Reg) (nn : Byte) : Statement (.addImm x nn) :=
  (wordXB_and_group ..).trans rfl

theorem assign (x y : Reg) : Statement (.assign x y) :=
  (wordXYN_and_nibble ..).trans rfl

theorem or (x y : Reg) : Statement (.or x y) :=
  (wordXYN_and_nibble ..).trans rfl

theorem and (x y : Reg) : Statement (.and x y) :=
  (wordXYN_and_nibble ..).trans rfl

theorem xor (x y : Reg) : Statement (.xor x y) :=
  (wordXYN_and_nibble ..).trans rfl

theorem addReg (x y : Reg) : Statement (.addReg x y) :=
  (wordXYN_and_nibble ..).trans rfl

theorem subReg (x y : Reg) : Statement (.subReg x y) :=
  (wordXYN_and_nibble ..).trans rfl

theorem shiftRight (x : Reg) (ignored : Nibble) : Statement (.shiftRight x ignored) :=
  (wordXYN_and_nibble ..).trans rfl

theorem subRegRev (x y : Reg) : Statement (.subRegRev x y) :=
  (wordXYN_and_nibble ..).trans rfl

theorem shiftLeft (x : Reg) (ignored : Nibble) : Statement (.shiftLeft x ignored) :=
  (wordXYN_and_nibble ..).trans rfl

theorem skipNeqReg (x y : Reg) (ignored : Nibble) : Statement (.skipNeqReg x y ignored) :=
  (wordXYN_and_group ..).trans rfl

theorem setIndex (nnn : Addr) : Statement (.setIndex nnn) :=
  (wordA_and_group ..).trans rfl

theorem jumpOffset (nnn : Addr) : Statement (.jumpOffset nnn) :=
  (wordA_and_group ..).trans rfl

theorem random (x : Reg) (nn : Byte) : Statement (.random x nn) :=
  (wordXB_and_group ..).trans rfl

theorem draw (x y : Reg) (n : Nibble) : Statement (.draw x y n) :=
  (wordXYN_and_group ..).trans rfl

theorem skipIfKey (x : Reg) : Statement (.skipIfKey x) :=
  (wordXB_and_byte ..).trans rfl

theorem skipIfNotKey (x : Reg) : Statement (.skipIfNotKey x) :=
  (wordXB_and_byte ..).trans rfl

theorem getDelay (x : Reg) : Statement (.getDelay x) :=
  (wordXB_and_byte ..).trans rfl

theorem waitKey (x : Reg) : Statement (.waitKey x) :=
  (wordXB_and_byte ..).trans rfl

theorem setDelay (x : Reg) : Statement (.setDelay x) :=
  (wordXB_and_byte ..).trans rfl

theorem setSound (x : Reg) : Statement (.setSound x) :=
  (wordXB_and_byte ..).trans rfl

theorem addIndex (x : Reg) : Statement (.addIndex x) :=
  (wordXB_and_byte ..).trans rfl

theorem fontAddress (x : Reg) : Statement (.fontAddress x) :=
  (wordXB_and_byte ..).trans rfl

theorem bcdStore (x : Reg) : Statement (.bcdStore x) :=
  (wordXB_and_byte ..).trans rfl

theorem regDump (x : Reg) : Statement (.regDump x) :=
  (wordXB_and_byte ..).trans rfl

theorem regLoad (x : Reg) : Statement (.regLoad x) :=
  (wordXB_and_byte ..).trans rfl

end Sys2Proof.Laws.RowMatch
end

