-- ==== Sys2Proof/WellFormed.lean ====
section
/-! DEFINITION. Which instructions are canonical: the words an assembler emits (spec/30_encoding.md R80, R84). Register numbers
and immediates are in range by their types, so the ignored fields are all there is to check. The machine itself makes no such
check: a word with a nonzero ignored field executes (R80, R82), and no meaning and no statement asks for canonical form. -/

namespace Sys2Proof

/-- The ignored field, if the form has one, is 0: groups 5 and 9 (R80), the shifts ("assembles `y` = 0", R84). -/
def Instr.wellFormed : Instr → Bool
  | .skipEqReg _ _ ignored => ignored == 0
  | .skipNeqReg _ _ ignored => ignored == 0
  | .shiftRight _ ignored => ignored == 0
  | .shiftLeft _ ignored => ignored == 0
  | .clearScreen | .ret | .jump _ | .call _ | .skipEqImm _ _ | .skipNeqImm _ _ | .setImm _ _ | .addImm _ _
  | .assign _ _ | .or _ _ | .and _ _ | .xor _ _ | .addReg _ _ | .subReg _ _ | .subRegRev _ _
  | .setIndex _ | .jumpOffset _ | .random _ _ | .draw _ _ _ | .skipIfKey _ | .skipIfNotKey _
  | .getDelay _ | .waitKey _ | .setDelay _ | .setSound _ | .addIndex _ | .fontAddress _ | .bcdStore _
  | .regDump _ | .regLoad _ => true

end Sys2Proof
end

