-- ==== Sys2Proof/Tests/Slice0.lean ====
section
/-! SUPPORT. Tests, each about one step or one word, and a witness for every statement that has hypotheses. Expected results are
those of spec/95_test_vectors.md (the table and row are named) or of a rule's own example. -/

open Sys2Proof Sys2Proof.Machine

namespace Sys2Proof.Tests

/-! ### Helpers: the single-instruction vector of 95 ("the word placed at `pc` = 0x200 in a machine otherwise in the reset state") -/

/-- One cycle with the word `w` at `pc`. -/
def run (w : Word) (before : State) : Result := step (placeWord before w)

/-- Something about the state a result goes on in. -/
def look {α : Type} (f : State → α) : Result → Option α
  | .next t => some (f t)
  | .fault _ => none
  | .refused _ => none

/-- The fault a result stops with. -/
def faultOf : Result → Option Fault
  | .next _ => none
  | .fault f => some f
  | .refused _ => none

/-- The state a result goes on in; the reset state where it stops. -/
def stateOf : Result → State
  | .next t => t
  | .fault _ => State.reset
  | .refused _ => State.reset

/-- The reset state with two registers set. -/
def regs2 (a : Reg) (x : Byte) (b : Reg) (y : Byte) : State := writeReg (writeReg State.reset a x) b y

/-- The pixels of row `Y` in the columns named. -/
def rowAt (s : State) (Y : Fin 32) (cols : List (Fin 64)) : List Bool := cols.map fun X => getPixel s.px X Y

/-! ### WellFormed: an ill-formed term for each check -/

theorem test_wf_skip_eq_reg : (Instr.skipEqReg 1 2 7).wellFormed = false := by decide
theorem test_wf_skip_neq_reg : (Instr.skipNeqReg 1 2 0xF).wellFormed = false := by decide
theorem test_wf_shift_right : (Instr.shiftRight 1 0xA).wellFormed = false := by decide
theorem test_wf_shift_left : (Instr.shiftLeft 1 0xA).wellFormed = false := by decide
theorem test_wf_canonical : (Instr.skipEqReg 1 2 0).wellFormed = true := by decide

/-! ### Decode: every constructor's word, written out from the pattern of R81 and the examples of 41 to 45 -/

theorem test_decode_00E0 : decodeWord 0x00E0 = .ok .clearScreen := by decide
theorem test_decode_00EE : decodeWord 0x00EE = .ok .ret := by decide
theorem test_decode_1208 : decodeWord 0x1208 = .ok (.jump 0x208) := by decide
theorem test_decode_2208 : decodeWord 0x2208 = .ok (.call 0x208) := by decide
theorem test_decode_3005 : decodeWord 0x3005 = .ok (.skipEqImm 0 5) := by decide
theorem test_decode_4F05 : decodeWord 0x4F05 = .ok (.skipNeqImm 15 5) := by decide
theorem test_decode_5127 : decodeWord 0x5127 = .ok (.skipEqReg 1 2 7) := by decide
theorem test_decode_6103 : decodeWord 0x6103 = .ok (.setImm 1 3) := by decide
theorem test_decode_7A02 : decodeWord 0x7A02 = .ok (.addImm 10 2) := by decide
theorem test_decode_8120 : decodeWord 0x8120 = .ok (.assign 1 2) := by decide
theorem test_decode_8121 : decodeWord 0x8121 = .ok (.or 1 2) := by decide
theorem test_decode_8122 : decodeWord 0x8122 = .ok (.and 1 2) := by decide
theorem test_decode_8123 : decodeWord 0x8123 = .ok (.xor 1 2) := by decide
theorem test_decode_8014 : decodeWord 0x8014 = .ok (.addReg 0 1) := by decide
theorem test_decode_8125 : decodeWord 0x8125 = .ok (.subReg 1 2) := by decide
theorem test_decode_81A6 : decodeWord 0x81A6 = .ok (.shiftRight 1 0xA) := by decide
theorem test_decode_8127 : decodeWord 0x8127 = .ok (.subRegRev 1 2) := by decide
theorem test_decode_81AE : decodeWord 0x81AE = .ok (.shiftLeft 1 0xA) := by decide
theorem test_decode_912F : decodeWord 0x912F = .ok (.skipNeqReg 1 2 0xF) := by decide
theorem test_decode_A300 : decodeWord 0xA300 = .ok (.setIndex 0x300) := by decide
theorem test_decode_BFFF : decodeWord 0xBFFF = .ok (.jumpOffset 0xFFF) := by decide
theorem test_decode_C30F : decodeWord 0xC30F = .ok (.random 3 0x0F) := by decide
theorem test_decode_D125 : decodeWord 0xD125 = .ok (.draw 1 2 5) := by decide
theorem test_decode_E29E : decodeWord 0xE29E = .ok (.skipIfKey 2) := by decide
theorem test_decode_E2A1 : decodeWord 0xE2A1 = .ok (.skipIfNotKey 2) := by decide
theorem test_decode_F307 : decodeWord 0xF307 = .ok (.getDelay 3) := by decide
theorem test_decode_F50A : decodeWord 0xF50A = .ok (.waitKey 5) := by decide
theorem test_decode_F415 : decodeWord 0xF415 = .ok (.setDelay 4) := by decide
theorem test_decode_F418 : decodeWord 0xF418 = .ok (.setSound 4) := by decide
theorem test_decode_F21E : decodeWord 0xF21E = .ok (.addIndex 2) := by decide
theorem test_decode_F029 : decodeWord 0xF029 = .ok (.fontAddress 0) := by decide
theorem test_decode_F333 : decodeWord 0xF333 = .ok (.bcdStore 3) := by decide
theorem test_decode_F255 : decodeWord 0xF255 = .ok (.regDump 2) := by decide
theorem test_decode_F265 : decodeWord 0xF265 = .ok (.regLoad 2) := by decide

/-- 2.6: the words of group 0 that a loose decoder would take. -/
theorem test_decode_group0_rejects :
    decodeWord 0x0000 = .error .unrecognisedGroup0 ∧ decodeWord 0x00E1 = .error .unrecognisedGroup0 ∧
    decodeWord 0x00F0 = .error .unrecognisedGroup0 ∧ decodeWord 0x01E0 = .error .unrecognisedGroup0 ∧
    decodeWord 0x0123 = .error .unrecognisedGroup0 ∧ decodeWord 0x0FFF = .error .unrecognisedGroup0 := by decide

/-- 2.6: the unrecognised words of group 8. -/
theorem test_decode_group8_rejects :
    decodeWord 0x8128 = .error .unrecognisedGroup8 ∧ decodeWord 0x8129 = .error .unrecognisedGroup8 ∧
    decodeWord 0x812A = .error .unrecognisedGroup8 ∧ decodeWord 0x812B = .error .unrecognisedGroup8 ∧
    decodeWord 0x812C = .error .unrecognisedGroup8 ∧ decodeWord 0x812D = .error .unrecognisedGroup8 ∧
    decodeWord 0x812F = .error .unrecognisedGroup8 := by decide

/-- 2.6: unrecognised words of group E. -/
theorem test_decode_groupE_rejects :
    decodeWord 0xE000 = .error .unrecognisedGroupE ∧ decodeWord 0xE09F = .error .unrecognisedGroupE ∧
    decodeWord 0xE1A2 = .error .unrecognisedGroupE ∧ decodeWord 0xE00E = .error .unrecognisedGroupE ∧
    decodeWord 0xE0FF = .error .unrecognisedGroupE := by decide

/-- 2.6: unrecognised words of group F. -/
theorem test_decode_groupF_rejects :
    decodeWord 0xF000 = .error .unrecognisedGroupF ∧ decodeWord 0xF075 = .error .unrecognisedGroupF ∧
    decodeWord 0xF085 = .error .unrecognisedGroupF ∧ decodeWord 0xF1FF = .error .unrecognisedGroupF ∧
    decodeWord 0xFFFF = .error .unrecognisedGroupF ∧ decodeWord 0xF01F = .error .unrecognisedGroupF ∧
    decodeWord 0xF056 = .error .unrecognisedGroupF := by decide

/-- Bytes are taken most significant first (R54), and one byte is no instruction. -/
theorem test_decode_bytes : decodeBytes [0x80, 0x14, 0xFF] = .ok (.addReg 0 1, [0xFF]) ∧
    decodeBytes [0x80] = .error .truncated := by decide

theorem test_decode_table_word : decodeTableWord 16 0xD125 = some (.draw 1 2 5) ∧ decodeTableWord 16 0x0000 = none := by decide

/-- The encoder's words, against the patterns of R81. -/
theorem test_encode : encode (.draw 1 2 5) = 0xD125 ∧ encode (.call 0x208) = 0x2208 ∧ encode (.setImm 1 3) = 0x6103 ∧
    encode (.shiftLeft 1 0xA) = 0x81AE ∧ encode (.regLoad 2) = 0xF265 := by decide

/-! ### Control flow (2.1) -/

/-- 2.1 row 6: the slot keeps its value. -/
theorem test_return :
    look (fun t => (t.pc, t.sp, t.stack[15])) (run 0x00EE { State.reset with pc := 0x300, sp := 16, stack := State.reset.stack.set 15 0x456 })
      = some (0x458, 15, 0x456) := by decide

/-- 2.1 row 7. -/
theorem test_return_underflow :
    faultOf (run 0x00EE { State.reset with pc := 0x300 }) = some (.stackUnderflow 0x300) := by decide

/-- 2.1 row 3: an odd target is taken. -/
theorem test_jump_odd : look State.pc (run 0x1201 State.reset) = some 0x201 := by decide

/-- 2.1 row 4: the sixteenth call succeeds. -/
theorem test_call :
    look (fun t => (t.pc, t.sp, t.stack[15])) (run 0x2ABC { State.reset with pc := 0x300, sp := 15 }) = some (0xABC, 16, 0x300) := by decide

/-- 2.1 row 5: the seventeenth does not. -/
theorem test_call_overflow :
    faultOf (run 0x2ABC { State.reset with pc := 0x300, sp := 16 }) = some (.stackOverflow 0x300) := by decide

/-- 2.1 rows 8 and 9. -/
theorem test_skip_eq_imm : look State.pc (run 0x3005 (writeReg State.reset 0 5)) = some 0x204 ∧
    look State.pc (run 0x3005 (writeReg State.reset 0 6)) = some 0x202 := by decide

/-- 2.1 rows 11 and 12. -/
theorem test_skip_neq_imm : look State.pc (run 0x4005 (writeReg State.reset 0 5)) = some 0x202 ∧
    look State.pc (run 0x4005 (writeReg State.reset 0 6)) = some 0x204 := by decide

/-- 2.1 row 15: the low nibble is ignored. -/
theorem test_skip_eq_reg : look State.pc (run 0x5127 (regs2 1 4 2 4)) = some 0x204 := by decide

/-- 2.1 rows 17 and 18. -/
theorem test_skip_neq_reg : look State.pc (run 0x9110 (writeReg State.reset 1 200)) = some 0x202 ∧
    look State.pc (run 0x912F (regs2 1 4 2 5)) = some 0x204 := by decide

/-- 2.1 row 21: not reduced to 12 bits. -/
theorem test_jump_offset : look State.pc (run 0xBFFF (writeReg State.reset 0 0xFF)) = some 0x10FE := by decide

/-- 2.1 row 23: a skip past the end of memory succeeds. -/
theorem test_skip_past_end : look State.pc (run 0x3000 { State.reset with pc := 0xFFC }) = some 0x1000 := by decide

/-- 2.1 row 22, second cycle, and P7f: the fetch needs both bytes. -/
theorem test_fetch_beyond : faultOf (step { State.reset with pc := 0x1000 }) = some (.addressError 0x1000 0x1001) ∧
    faultOf (step { State.reset with pc := 0xFFF }) = some (.addressError 0xFFF 0x1000) := by decide

/-! ### Arithmetic and logic (2.2) -/

/-- 2.2 row 2: register 15 is an ordinary destination. -/
theorem test_set_imm : look (fun t => readReg t 15) (run 0x6FAB State.reset) = some 0xAB := by decide

/-- 2.2 row 3: no flag. -/
theorem test_add_imm : look (fun t => (readReg t 10, readReg t 15)) (run 0x7A02 (writeReg State.reset 10 0xFF)) = some (0x01, 0) := by decide

/-- 2.2 row 6. -/
theorem test_assign : look (fun t => readReg t 1) (run 0x8120 (writeReg State.reset 2 0x3C)) = some 0x3C := by decide

/-- 2.2 row 8: the flag is unchanged. -/
theorem test_or : look (fun t => (readReg t 1, readReg t 15)) (run 0x8121 (writeReg (regs2 1 0xF0 2 0x3C) 15 1)) = some (0xFC, 1) := by decide

/-- 2.2 row 9. -/
theorem test_and : look (fun t => readReg t 1) (run 0x8122 (regs2 1 0xF0 2 0x3C)) = some 0x30 := by decide

/-- 2.2 row 10. -/
theorem test_xor : look (fun t => readReg t 1) (run 0x8123 (regs2 1 0xF0 2 0x3C)) = some 0xCC := by decide

/-- 2.2 row 13: wraps, carry 1. -/
theorem test_add_reg_carry : look (fun t => (readReg t 0, readReg t 15)) (run 0x8014 (regs2 0 0xFF 1 0x01)) = some (0x00, 1) := by decide

/-- 2.2 row 18: with `x` = 15 the sum is lost. -/
theorem test_add_reg_flag_last : look (fun t => readReg t 15) (run 0x8F14 (regs2 15 0x10 1 0x20)) = some 0 := by decide

/-- 2.2 row 21: borrow. -/
theorem test_sub_reg_borrow : look (fun t => (readReg t 1, readReg t 15)) (run 0x8125 (regs2 1 3 2 5)) = some (0xFE, 0) := by decide

/-- 2.2 row 22: equal operands do not borrow. -/
theorem test_sub_reg_equal : look (fun t => (readReg t 1, readReg t 15)) (run 0x8125 (regs2 1 5 2 5)) = some (0x00, 1) := by decide

/-- 2.2 row 30: `y` is ignored. -/
theorem test_shift_right : look (fun t => (readReg t 1, readReg t 15)) (run 0x81A6 (regs2 1 0x04 10 0xFF)) = some (0x02, 0) := by decide

/-- 2.2 row 31. -/
theorem test_shift_right_flag_last : look (fun t => readReg t 15) (run 0x8F06 (writeReg State.reset 15 0x03)) = some 1 := by decide

/-- 2.2 row 34. -/
theorem test_sub_reg_rev : look (fun t => (readReg t 1, readReg t 15)) (run 0x8127 (regs2 1 5 2 3)) = some (0xFE, 0) := by decide

/-- 2.2 row 37. -/
theorem test_shift_left : look (fun t => (readReg t 1, readReg t 15)) (run 0x810E (writeReg State.reset 1 0x81)) = some (0x02, 1) := by decide

/-- 2.2 row 44: whatever the byte, a mask of 0 gives 0. -/
theorem test_random_masked : look (fun t => (readReg t 1).getLsbD 0) (run 0xC1F0 State.reset) = some false := by
  have h : ∀ b : Byte, (b &&& 0xF0).getLsbD 0 = false := by decide
  exact congrArg some (h (Config.freeRandom 0))

/-! ### Index register and memory transfer (2.3) -/

/-- 2.3 row 2. -/
theorem test_set_index : look State.index (run 0xAFFF State.reset) = some 0x0FFF := by decide

/-- 2.3 rows 4 and 5. -/
theorem test_add_index : look State.index (run 0xF11E (writeReg { State.reset with index := 0x0FFF } 1 0xFF)) = some 0x10FE ∧
    look State.index (run 0xF11E (writeReg { State.reset with index := 0xFFFF } 1 0x01)) = some 0 := by decide

/-- 2.3 row 9: the whole byte, not its low nibble. -/
theorem test_font_address : look State.index (run 0xF029 (writeReg State.reset 0 0xFF)) = some 0x04FB := by decide

/-- S3: 157 is 1, 5, 7. -/
theorem test_bcd_store :
    look (fun t => Memory.read t.mem 0x400 3) (run 0xF333 (writeReg { State.reset with index := 0x400 } 3 157)) = some [1, 5, 7] := by decide

/-- 2.3 row 16: one byte too far. -/
theorem test_bcd_store_address : faultOf (run 0xF333 (writeReg { State.reset with index := 0xFFE } 3 1)) =
    some (.addressError 0x200 0x1000) := by decide

/-- 2.3 row 17. -/
theorem test_reg_dump :
    look (fun t => (Memory.read t.mem 0x300 4, t.index)) (run 0xF255 (writeReg (writeReg (writeReg { State.reset with index := 0x300 } 0 0x11) 1 0x22) 2 0x33))
      = some ([0x11, 0x22, 0x33, 0], 0x303) := by decide

/-- 2.3 row 19: all or nothing. -/
theorem test_reg_dump_address : faultOf (run 0xFF55 { State.reset with index := 0xFF1 }) = some (.addressError 0x200 0x1000) := by decide

/-- 2.3 row 22: font bytes of glyph 0. -/
theorem test_reg_load :
    look (fun t => (readReg t 0, readReg t 1, readReg t 2, t.index)) (run 0xF165 (regs2 0 9 1 9)) = some (0xF0, 0x90, 0, 2) := by decide

/-- 2.3 row 23. -/
theorem test_reg_load_address : faultOf (run 0xF065 { State.reset with index := 0x1000 }) = some (.addressError 0x200 0x1000) := by decide

/-! ### Graphics (2.4) -/

/-- The reset state with one byte or two at 0x300, `I` there, and a position in `V[0]`, `V[1]`. -/
def sprite (bytes : List Byte) (vx vy : Byte) : State :=
  writeReg (writeReg { writeBytes State.reset 0x300 bytes with index := 0x300 } 0 vx) 1 vy

/-- 2.4 row 1: `redraw` and `V[15]` are not written. -/
theorem test_clear_screen :
    look (fun t => (rowAt t 31 [62, 63], readReg t 15, t.redraw))
      (run 0x00E0 (writeReg { State.reset with px := flipPixel State.reset.px 63 31 } 15 1)) = some ([false, false], 1, false) := by decide

/-- 2.4 row 2: rows 0, 1 and 5 of glyph 0, whose bytes are F0 90 90 90 F0; row 4: wrap over the bottom edge; row 9: a collision in
either row sets the one flag. -/
theorem test_draw :
    look (fun t => (rowAt t 0 [0, 3, 4, 63], rowAt t 1 [0, 1, 3, 4], rowAt t 5 [0], readReg t 15, t.redraw)) (run 0xD015 State.reset) =
      some ([true, true, false, false], [true, false, true, false], [false], 0, true) ∧
    look (fun t => (rowAt t 31 [0, 1], rowAt t 0 [0, 1], rowAt t 1 [0])) (run 0xD012 (sprite [0x80, 0x80] 0 31)) =
      some ([true, false], [true, false], [false]) ∧
    look (fun t => (rowAt t 1 [1, 3], rowAt t 2 [1, 2], readReg t 15))
      (run 0xD012 { sprite [0xA0, 0x40] 1 1 with px := flipPixel (flipPixel State.reset.px 1 1) 2 2 }) =
      some ([false, true], [false, false], 1) := by decide

/-- 2.4 row 10: the old `V[15]` is the column; rows 6 and 12: `n` = 0 forms no address; the last byte must exist. -/
theorem test_draw_corners :
    look (fun t => (rowAt t 2 [0, 4, 5, 6], readReg t 15)) (run 0xDF01 (writeReg (sprite [0x80] 2 0) 15 5)) =
      some ([false, false, true, false], 0) ∧
    look (fun t => (t.redraw, t.pc)) (run 0xD010 { State.reset with index := 0xFFFF }) = some (true, 0x202) ∧
    faultOf (run 0xD013 { State.reset with index := 0xFFE }) = some (.addressError 0x200 0x1000) := by decide

/-! ### Timers and keys (2.5) -/

/-- The reset state with one register set and some keys down. -/
def keysDown (x : Reg) (b : Byte) (ks : List Key) : State :=
  writeReg (ks.foldl (fun s k => hostSetKey k true s) State.reset) x b

/-- 2.5 rows 1 and 2. -/
theorem test_skip_if_key : look State.pc (run 0xE29E (keysDown 2 10 [10])) = some 0x204 ∧
    look State.pc (run 0xE29E (keysDown 2 10 [])) = some 0x202 := by decide

/-- 2.5 row 4. -/
theorem test_skip_if_key_index : faultOf (run 0xE09E (keysDown 0 255 [])) = some (.keyIndexError 0x200 255) := by decide

/-- 2.5 rows 5 and 6. -/
theorem test_skip_if_not_key : look State.pc (run 0xE2A1 (keysDown 2 10 [])) = some 0x204 ∧
    look State.pc (run 0xE0A1 (keysDown 0 15 [15])) = some 0x202 := by decide

/-- 2.5 row 7: not masked. -/
theorem test_skip_if_not_key_index : faultOf (run 0xE0A1 (keysDown 0 16 [15])) = some (.keyIndexError 0x200 16) := by decide

/-- 2.5 row 8: read before the tick. -/
theorem test_get_delay : look (fun t => (readReg t 3, t.dt)) (run 0xF307 State.reset) = some (60, 59) := by decide

/-- 2.5 row 11: waiting is no error and the timers run. -/
theorem test_wait_key_waits : look (fun t => (readReg t 0, t.pc, t.dt)) (run 0xF00A (keysDown 0 9 [])) = some (9, 0x200, 59) := by decide

/-- P6 cycle 6: keys 9 and 3 down, the lowest wins. -/
theorem test_wait_key_lowest : look (fun t => (readReg t 5, t.pc)) (run 0xF50A (keysDown 5 0 [9, 3])) = some (3, 0x202) := by decide

/-- 2.5 rows 14 and 15. -/
theorem test_set_delay : look State.dt (run 0xF415 (writeReg State.reset 4 5)) = some 4 ∧
    look State.dt (run 0xF115 (writeReg State.reset 1 0)) = some 0 := by decide

/-- 2.5 rows 19 and 20: the tick sees the timer just written. -/
theorem test_set_sound : look (fun t => (t.st, t.tone)) (run 0xF118 (writeReg State.reset 1 1)) = some (0, true) ∧
    look (fun t => (t.st, t.tone)) (run 0xF118 { State.reset with st := 1 }) = some (0, false) := by decide

/-- 2.5 row 22: the tick, and the tone, of an erring cycle. -/
theorem test_tick_on_error : cycle { State.reset with dt := 1, st := 1 } =
    { after := { State.reset with dt := 0, st := 0, tone := true }, outcome := .error (.decodeError 0x200 0) } := by decide

/-! ### Reset, load and the package's own interface (2.7) -/

/-- 2.7 row 2. -/
theorem test_reset_then_cycle : faultOf (step State.reset) = some (.decodeError 0x200 0x0000) := by decide

/-- 2.7 row 6. -/
theorem test_load : (hostLoad [0x60, 0x05] (writeReg { State.reset with sp := 4 } 3 9)).1 =
    { State.reset with mem := [(0x200, 0x60), (0x201, 0x05)] } := by decide

/-- R207's idiom as the first instruction placed by the host's check. -/
theorem test_with_fetch_word : look State.pc (step (State.reset.withFetchWord 16 0x1200)) = some 0x200 := by decide

/-- A write of what an unlisted address reads as lists nothing: the font byte at 0, and 0 above it. -/
theorem test_memory_canonical : Memory.set (Memory.set [] 0 0xF0) 0x300 0 = [] ∧ Memory.wf (Memory.set [] 0x300 1) = true ∧
    Memory.wf [(3, 1), (2, 1)] = false ∧ Memory.wf [(0, 0xF0)] = false ∧ Memory.wf [(4096, 1)] = false := by decide

/-! ### Witnesses: a state and operands that meet all the hypotheses of a statement, clause by clause -/

/-- The reset state with the word `w` at 0x200. -/
def at200 (w : Word) : State := placeWord State.reset w

theorem witness_EncodeInvertsDecode : decodeWord 0xD125 = .ok (.draw 1 2 5) := by decide

theorem witness_StepRunsTheDecodedInstruction : (at200 0x6005).pc.toNat ≤ 0xFFE ∧
    decodeBytes (Memory.read (at200 0x6005).mem (at200 0x6005).pc.toNat 2) = .ok (.setImm 0 5, []) := by decide

theorem witness_FetchBeyondMemoryStops : 0xFFE < ({ State.reset with pc := 0xFFF } : State).pc.toNat := by decide

theorem witness_UnrecognisedWordStops : State.reset.pc.toNat ≤ 0xFFE ∧
    decodeWord (fetchedWord State.reset) = .error .unrecognisedGroup0 := by decide

theorem witness_ErrorCycleOnlyTicks : (cycle State.reset).outcome = .error (.decodeError 0x200 0) := by decide

theorem witness_ErrorsRepeatInEveryLaterCycle : (cycle (at200 0x00EE)).outcome = .error (.stackUnderflow 0x200) := by decide

theorem witness_EveryCycleTicksTheTimers_next :
    runInstruction (at200 0x6005) = .next (stateOf (runInstruction (at200 0x6005))) := rfl

theorem witness_EveryCycleTicksTheTimers_fault : faultOf (runInstruction State.reset) = some (.decodeError 0x200 0) := by decide

theorem witness_EveryCycleTicksTheTimers_get_delay : Executes (at200 0xF307) (.getDelay 3) := by
  unfold Executes; decide

theorem witness_TimersCountCycles : (∀ j < 2, ∀ x, ¬ Executes (afterCycles j (at200 0x1200)) (.setDelay x)) ∧
    (∀ j < 3, ∀ x, ¬ Executes (afterCycles j (at200 0x1200)) (.setSound x)) := by
  unfold Executes; decide

theorem witness_ReturnPopsAndAddsTwo : ({ State.reset with sp := 1 } : State).sp.val = (0 : Fin 16).val + 1 ∧
    ({ State.reset with sp := 16 } : State).sp.val = (15 : Fin 16).val + 1 := by decide

theorem witness_ReturnWithEmptyStackStops : (at200 0x00EE).sp.val = 0 ∧ Executes (at200 0x00EE) .ret := by
  unfold Executes; decide

theorem witness_CallPushesItsOwnAddress : State.reset.sp.val = (0 : Fin 16).val ∧
    ({ State.reset with sp := 15 } : State).sp.val = (15 : Fin 16).val ∧
    ({ at200 0x2ABC with sp := 16 } : State).sp.val = 16 ∧ Executes { at200 0x2ABC with sp := 16 } (.call 0xABC) := by
  unfold Executes; decide

theorem witness_destination_is_not_the_flag : (0 : Reg) ≠ flagReg := by decide

theorem witness_FlagWritersLeaveZeroOrOne :
    exec (.draw 0 1 5) State.reset = .next (stateOf (exec (.draw 0 1 5) State.reset)) := rfl

theorem witness_RandomIsAFreeByteMasked_bit : (0x0F : Byte).getLsbD 7 = false := by decide

theorem witness_BcdStoreWritesThreeDigits : ({ State.reset with index := 0xFFD } : State).index.toNat + 2 ≤ 0xFFF := by decide

theorem witness_RegDump_RegLoad_in_range :
    ({ State.reset with index := 0xFF0 } : State).index.toNat + (15 : Reg).val ≤ 0xFFF ∧ (15 : Reg).val ≤ (15 : Reg).val := by decide

/-- `r` is the state after the dump with every register lost and `I` reloaded (S4). -/
theorem witness_LoadRestoresWhatDumpStored :
    let s := writeReg { State.reset with index := 0xFF0 } 0 0xAA
    let t := stateOf (exec (.regDump 15) s)
    let r := { t with index := s.index, v := Vector.replicate 16 0 }
    exec (.regDump 15) s = .next t ∧ (∀ a, Memory.get r.mem a = Memory.get t.mem a) ∧ r.index = s.index ∧
      readReg r 0 ≠ readReg s 0 :=
  ⟨rfl, fun _ => rfl, rfl, by decide⟩

theorem witness_DrawFlipsTheCoveredPixels : (0 : Nibble).toNat = 0 ∧
    ({ State.reset with index := 0xFFE } : State).index.toNat + (2 : Nibble).toNat - 1 ≤ 0xFFF := by decide

/-- A covered pixel and one that is not. -/
theorem witness_DrawFlipsTheCoveredPixels_clauses : Covered 0 1 5 State.reset 0 0 ∧ ¬ Covered 0 1 5 State.reset 8 0 := by
  refine ⟨⟨0, 0, by decide⟩, ?_⟩
  rintro ⟨r, c, -, hc, -, hX, -⟩
  have h0 : (readReg State.reset 0).toNat = 0 := by decide
  have h8 : (8 : Fin 64).val = 8 := by decide
  omega

/-- Two draws of glyph 0, and a buffer that is clear under it. -/
theorem witness_two_draws :
    let s := State.reset
    let t := stateOf (exec (.draw 0 1 5) s)
    exec (.draw 0 1 5) s = .next t ∧ exec (.draw 0 1 5) t = .next (stateOf (exec (.draw 0 1 5) t)) ∧
      readReg t 0 = readReg s 0 ∧ readReg t 1 = readReg s 1 ∧ t.index = s.index ∧
      (∀ k < (5 : Nibble).toNat, Memory.get t.mem (indexAddr s + k) = Memory.get s.mem (indexAddr s + k)) ∧ t.px = t.px ∧
      (∀ X Y, Covered 0 1 5 s X Y → getPixel s.px X Y = false) :=
  ⟨rfl, rfl, by decide, by decide, by decide, by decide, rfl, fun X Y _ => by simp [State.reset, getPixel]⟩

theorem witness_KeySkipsAddFourOrTwo : (readReg (keysDown 2 15 [15]) 2).toNat = (15 : Key).val ∧
    (readReg (keysDown 2 0 []) 2).toNat = (0 : Key).val := by decide

theorem witness_WaitKeyTakesTheLowestKey : (∀ k : Key, (at200 0xF50A).key[k.val] = false) ∧
    Executes (at200 0xF50A) (.waitKey 5) ∧ (keysDown 5 0 [9, 3]).key[(3 : Key).val] = true ∧
    (∀ j : Key, j.val < (3 : Key).val → (keysDown 5 0 [9, 3]).key[j.val] = false) := by
  unfold Executes; decide

theorem witness_TimerWriteIsTickedInItsOwnCycle : Executes (at200 0xF415) (.setDelay 4) ∧ Executes (at200 0xF418) (.setSound 4) := by
  unfold Executes; decide

theorem witness_OnlyTheAccessMatrixIsWritten :
    exec (.regDump 15) State.reset = .next (stateOf (exec (.regDump 15) State.reset)) := rfl

/-- The step of the second theorem, from a state that meets the invariant. -/
theorem witness_StateInvariant : StateInvariant (at200 0x2ABC) := by
  unfold StateInvariant; decide

theorem witness_EveryStepKeepsTheInvariant : step (at200 0x2ABC) = .next (stateOf (step (at200 0x2ABC))) := rfl

theorem witness_LoadCopiesTheProgramAfterReset : (List.replicate 3584 (0xAA : Byte)).length ≤ 3584 :=
  Nat.le_of_eq List.length_replicate

theorem witness_OversizedLoadLeavesTheResetState : (hostLoad (List.replicate 3585 0xAA) State.reset).2 = .loadError := by
  unfold hostLoad
  rw [if_pos (by rw [List.length_replicate]; decide)]

theorem witness_SelfJumpOnlyRunsTheTimersDown : programEnded (at200 0x1200) = true := by decide

/-- R207: a self-jump at the last address a word can be fetched from; then a jump elsewhere, a `pc` outside RAM whose low 12 bits are
the target, and an unrecognised word. -/
theorem test_program_ended : programEnded (placeWord { State.reset with pc := 0xFFE } 0x1FFE) = true ∧
    programEnded (at200 0x1202) = false ∧ programEnded { at200 0x1200 with pc := 0x1200 } = false ∧
    programEnded State.reset = false := by decide

/-- P5's store, at its own place. -/
theorem witness_StoredBytesAreFetchedNext :
    let s : State := { at200 0xF155 with index := 0x202 }
    Executes s (.regDump 1) ∧ s.index.toNat + (1 : Reg).val ≤ 0xFFF ∧ (1 : Reg).val = (0 : Reg).val + 1 ∧
      (1 : Reg).val ≤ (1 : Reg).val ∧ s.pc.toNat + 2 = s.index.toNat + (0 : Reg).val := by
  unfold Executes; decide

theorem witness_OutputsNeverInfluenceTheProgram : withoutOutputs { State.reset with st := 7, redraw := true, tone := true } =
    withoutOutputs State.reset ∧ ({ State.reset with st := 7 } : State) ≠ State.reset := by decide

theorem witness_OnlyKeyInstructionsReadTheLatch : readsKeys (.draw 0 1 5) = false := by decide

end Sys2Proof.Tests
end

section
/-! PROOFS. Which parts of the state an operation leaves as they were: one rule per operation, each letting a frame
that holds so far grow by one more write the set `w` allows; then the frame of every instruction (spec/10_state.md R40). -/

namespace Sys2Proof.Machine

/-! ### Frames, one rule per operation -/

theorem Frame.refl (w : Writes) (s : State) : Frame w s s := by simp [Frame]

/-- `pc` is in no frame: every instruction but a waiting `wait-key` writes it (R40). -/
theorem Frame.writePc {w : Writes} {s t : State} (h : Frame w s t) (a : Word) : Frame w s (writePc t a) := h

theorem Frame.advance {w : Writes} {s t : State} (h : Frame w s t) : Frame w s (advance t) := h

theorem Frame.skipIf {w : Writes} {s t : State} (h : Frame w s t) (c : Bool) : Frame w s (skipIf c t) := by
  cases c <;> exact h

theorem Frame.writeReg {w : Writes} {s t : State} (h : Frame w s t) {x : Reg} (hx : x ∈ w.regs) (b : Byte) :
    Frame w s (writeReg t x b) := by
  obtain ⟨hregs, hrest⟩ := h
  refine ⟨fun r hr => ?_, hrest⟩
  have hrx : r ≠ x := fun e => hr (e ▸ hx)
  rw [readReg_writeReg_other t b hrx, hregs r hr]

theorem Frame.writeResultThenFlag {w : Writes} {s t : State} (h : Frame w s t) {x : Reg} (hx : x ∈ w.regs)
    (hflag : flagReg ∈ w.regs) (result flag : Byte) : Frame w s (writeResultThenFlag t x result flag) :=
  (h.writeReg hx result).writeReg hflag flag

theorem Frame.writeRegs {w : Writes} {s t : State} (h : Frame w s t) {bs : List Byte}
    (hbs : ∀ r : Reg, r.val < bs.length → r ∈ w.regs) : Frame w s (writeRegs t bs) := by
  obtain ⟨hregs, hrest⟩ := h
  refine ⟨fun r hr => ?_, hrest⟩
  have hout : ¬ r.val < bs.length := fun hlt => hr (hbs r hlt)
  rw [readReg_writeRegs, if_neg hout, hregs r hr]

theorem Frame.writeIndex {w : Writes} {s t : State} (h : Frame w s t) (hw : w.index = true) (a : Word) :
    Frame w s (writeIndex t a) := by
  obtain ⟨hregs, -, hrest⟩ := h
  exact ⟨hregs, by simp [hw], hrest⟩

theorem Frame.bumpIndex {w : Writes} {s t : State} (h : Frame w s t) (hw : w.index = true) (x : Reg) :
    Frame w s (bumpIndex t x) :=
  h.writeIndex hw _

theorem Frame.writeBytes {w : Writes} {s t : State} (h : Frame w s t) {base : Nat} {xs : List Byte}
    (hxs : ∀ a ∈ List.range' base xs.length, a ∈ w.bytes) : Frame w s (writeBytes t base xs) := by
  obtain ⟨hregs, hindex, hslots, hsp, hbytes, hrest⟩ := h
  refine ⟨hregs, hindex, hslots, hsp, fun a ha => ?_, hrest⟩
  have hout : ¬ (base ≤ a ∧ a < base + xs.length) := fun hin => ha (hxs a (List.mem_range'_1.2 hin))
  rw [writeBytes_mem, Memory.get_write, if_neg hout, hbytes a ha]

theorem Frame.setDt {w : Writes} {s t : State} (h : Frame w s t) (hw : w.dt = true) (d : Byte) :
    Frame w s { t with dt := d } := by
  obtain ⟨hregs, hindex, hslots, hsp, hbytes, -, hrest⟩ := h
  exact ⟨hregs, hindex, hslots, hsp, hbytes, by simp [hw], hrest⟩

theorem Frame.setSt {w : Writes} {s t : State} (h : Frame w s t) (hw : w.st = true) (d : Byte) :
    Frame w s { t with st := d } := by
  obtain ⟨hregs, hindex, hslots, hsp, hbytes, hdt, -, hrest⟩ := h
  exact ⟨hregs, hindex, hslots, hsp, hbytes, hdt, by simp [hw], hrest⟩

theorem Frame.setPx {w : Writes} {s t : State} (h : Frame w s t) (hw : w.px = true) (p : Pixels) :
    Frame w s { t with px := p } := by
  obtain ⟨hregs, hindex, hslots, hsp, hbytes, hdt, hst, -, hrest⟩ := h
  exact ⟨hregs, hindex, hslots, hsp, hbytes, hdt, hst, by simp [hw], hrest⟩

theorem Frame.setRedraw {w : Writes} {s t : State} (h : Frame w s t) (hw : w.redraw = true) (b : Bool) :
    Frame w s { t with redraw := b } := by
  obtain ⟨hregs, hindex, hslots, hsp, hbytes, hdt, hst, hpx, -, hrest⟩ := h
  exact ⟨hregs, hindex, hslots, hsp, hbytes, hdt, hst, hpx, by simp [hw], hrest⟩

theorem Frame.writeDrawing {w : Writes} {s t : State} (h : Frame w s t) (hpx : w.px = true) (hredraw : w.redraw = true)
    (hflag : flagReg ∈ w.regs) (drawing : Pixels × Bool) : Frame w s (writeDrawing t drawing) :=
  ((h.setPx hpx drawing.1).setRedraw hredraw true).writeReg hflag _

theorem Frame.drawRandom {w : Writes} {s t : State} (h : Frame w s t) (hw : w.rnd = true) :
    Frame w s (drawRandom t).2 := by
  obtain ⟨hregs, hindex, hslots, hsp, hbytes, hdt, hst, hpx, hredraw, -, hrest⟩ := h
  exact ⟨hregs, hindex, hslots, hsp, hbytes, hdt, hst, hpx, hredraw, by simp [hw], hrest⟩

theorem mem_topSlots (s : State) (k : Fin 16) : k ∈ topSlots s ↔ k.val = s.sp.val := by
  by_cases h : s.sp.val < 16
  · simp [topSlots, h, Fin.ext_iff]
  · have := k.isLt
    simp [topSlots, h]; omega

theorem Frame.of_pushPc {s t : State} (h : pushPc s = some t) : Frame { slots := topSlots s, sp := true } s t := by
  by_cases hsp : s.sp.val < 16
  · rw [pushPc_of_lt s hsp] at h
    obtain rfl := Option.some.inj h
    refine ⟨fun _ _ => rfl, fun _ => rfl, fun k hk => ?_, by simp, by simp⟩
    have hne : s.sp.val ≠ k.val := fun e => hk ((mem_topSlots s k).2 e.symm)
    simp [hne]
  · have hfull : s.sp = 16 := Fin.ext (show s.sp.val = 16 by omega)
    simp [pushPc_of_full s hfull] at h

/-- The popped slot keeps its value, so that only `sp` is written (R25, D16). -/
theorem Frame.of_popSlot {s t : State} {slot : Word} (h : popSlot s = some (slot, t)) : Frame { sp := true } s t := by
  by_cases hsp : 0 < s.sp.val
  · rw [popSlot_of_pos s hsp] at h
    obtain ⟨-, rfl⟩ := Prod.mk.inj (Option.some.inj h)
    exact ⟨fun _ _ => rfl, fun _ => rfl, fun _ _ => rfl, by simp, by simp⟩
  · have hempty : s.sp = 0 := Fin.ext (show s.sp.val = 0 by omega)
    simp [popSlot_of_empty s hempty] at h

/-! ### Frames of results -/

/-- If the result is a next state, nothing but `pc` and what `w` names differs between `s` and it. -/
def FrameOnNext (w : Writes) (s : State) (r : Result) : Prop := ∀ t, r = .next t → Frame w s t

theorem Frame.onNext {w : Writes} {s t : State} (h : Frame w s t) : FrameOnNext w s (.next t) := by
  rintro _ ⟨⟩; exact h

theorem frameOnNext_raise (w : Writes) (s : State) (f : Fault) : FrameOnNext w s (raise f) := nofun

theorem FrameOnNext.checkSpan {w : Writes} {s : State} {r : Result} (h : FrameOnNext w s r) (base n : Nat) :
    FrameOnNext w s (checkSpan s base n r) := by
  rcases checkSpan_cases s base n r with ⟨-, e⟩ | ⟨-, -, e⟩
  · rw [e]; exact h
  · rw [e]; exact frameOnNext_raise w s _

/-! ### Frames of instructions -/

theorem frameOnNext_advance_writeReg (s : State) (x : Reg) (b : Byte) :
    FrameOnNext { regs := [x] } s (.next (advance (writeReg s x b))) :=
  ((Frame.refl _ s).writeReg (by simp) b).advance.onNext

theorem frameOnNext_advance_writeResultThenFlag (s : State) (x : Reg) (result flag : Byte) :
    FrameOnNext { regs := [x, flagReg] } s (.next (advance (writeResultThenFlag s x result flag))) :=
  ((Frame.refl _ s).writeResultThenFlag (by simp) (by simp) result flag).advance.onNext

theorem frameOnNext_advance_writeIndex (s : State) (a : Word) :
    FrameOnNext { index := true } s (.next (advance (writeIndex s a))) :=
  ((Frame.refl _ s).writeIndex rfl a).advance.onNext

theorem frameOnNext_skipIf (s : State) (c : Bool) : FrameOnNext {} s (.next (skipIf c s)) :=
  ((Frame.refl _ s).skipIf c).onNext

theorem frameOnNext_writePc (s : State) (a : Word) : FrameOnNext {} s (.next (writePc s a)) :=
  ((Frame.refl _ s).writePc a).onNext

theorem execRandom_frame (x : Reg) (nn : Byte) (s : State) :
    FrameOnNext { regs := [x], rnd := true } s (execRandom x nn s) :=
  (((Frame.refl _ s).drawRandom rfl).writeReg (by simp) _).advance.onNext

theorem execRet_frame (s : State) : FrameOnNext { sp := true } s (execRet s) := by
  unfold execRet
  cases h : popSlot s with
  | none => exact frameOnNext_raise _ s _
  | some popped => exact ((Frame.of_popSlot h).writePc _).onNext

theorem execCall_frame (nnn : Addr) (s : State) :
    FrameOnNext { slots := topSlots s, sp := true } s (execCall nnn s) := by
  unfold execCall
  cases h : pushPc s with
  | none => exact frameOnNext_raise _ s _
  | some t => exact ((Frame.of_pushPc h).writePc _).onNext

theorem execClearScreen_frame (s : State) : FrameOnNext { px := true } s (execClearScreen s) :=
  ((Frame.refl _ s).setPx rfl blankScreen).advance.onNext

theorem execDraw_frame (x y : Reg) (n : Nibble) (s : State) :
    FrameOnNext { regs := [flagReg], px := true, redraw := true } s (execDraw x y n s) :=
  ((Frame.refl _ s).writeDrawing rfl rfl (by simp) _).advance.onNext.checkSpan _ _

theorem execBcdStore_frame (x : Reg) (s : State) :
    FrameOnNext { bytes := List.range' (indexAddr s) 3 } s (execBcdStore x s) :=
  ((Frame.refl _ s).writeBytes (fun _ ha => ha)).advance.onNext.checkSpan _ _

theorem execRegDump_frame (x : Reg) (s : State) :
    FrameOnNext { index := true, bytes := List.range' (indexAddr s) (x.val + 1) } s (execRegDump x s) := by
  have hstored : ∀ a ∈ List.range' (indexAddr s) (regsUpTo s x).length, a ∈ List.range' (indexAddr s) (x.val + 1) := by
    simp
  exact (((Frame.refl _ s).writeBytes hstored).bumpIndex rfl x).advance.onNext.checkSpan _ _

theorem execRegLoad_frame (x : Reg) (s : State) :
    FrameOnNext { index := true, regs := regsTo x } s (execRegLoad x s) := by
  have hloaded : ∀ r : Reg, r.val < (readBytes s (indexAddr s) (x.val + 1)).length → r ∈ regsTo x := by
    intro r hr
    rw [readBytes, Memory.length_read] at hr
    exact (mem_regsTo x r).2 (by omega)
  exact (((Frame.refl _ s).writeRegs hloaded).bumpIndex rfl x).advance.onNext.checkSpan _ _

theorem skipOnKey_frame (wanted : Bool) (x : Reg) (s : State) : FrameOnNext {} s (skipOnKey wanted x s) := by
  unfold skipOnKey
  cases keyOfReg s x with
  | none => exact frameOnNext_raise _ s _
  | some k => exact frameOnNext_skipIf s _

/-- A waiting `wait-key` writes nothing at all (R164). -/
theorem execWaitKey_frame (x : Reg) (s : State) : FrameOnNext { regs := [x] } s (execWaitKey x s) := by
  unfold execWaitKey
  cases lowestKey s with
  | none => exact (Frame.refl _ s).onNext
  | some k => exact frameOnNext_advance_writeReg s x _

theorem execSetDelay_frame (x : Reg) (s : State) : FrameOnNext { dt := true } s (execSetDelay x s) :=
  ((Frame.refl _ s).setDt rfl _).advance.onNext

theorem execSetSound_frame (x : Reg) (s : State) : FrameOnNext { st := true } s (execSetSound x s) :=
  ((Frame.refl _ s).setSt rfl _).advance.onNext

/-- The access matrix, row by row (R40). -/
theorem exec_frame (i : Instr) (s : State) : FrameOnNext (writesOf i s) s (exec i s) := by
  cases i with
  | clearScreen => exact execClearScreen_frame s
  | ret => exact execRet_frame s
  | call nnn => exact execCall_frame nnn s
  | jump | jumpOffset => exact frameOnNext_writePc s _
  | skipEqImm | skipNeqImm | skipEqReg | skipNeqReg => exact frameOnNext_skipIf s _
  | skipIfKey x | skipIfNotKey x => exact skipOnKey_frame _ x s
  | setImm x | addImm x | assign x | or x | and x | xor x | getDelay x => exact frameOnNext_advance_writeReg s x _
  | waitKey x => exact execWaitKey_frame x s
  | addReg x | subReg x | subRegRev x | shiftRight x | shiftLeft x =>
    exact frameOnNext_advance_writeResultThenFlag s x _ _
  | setIndex | addIndex | fontAddress => exact frameOnNext_advance_writeIndex s _
  | random x nn => exact execRandom_frame x nn s
  | draw x y n => exact execDraw_frame x y n s
  | setDelay x => exact execSetDelay_frame x s
  | setSound x => exact execSetSound_frame x s
  | bcdStore x => exact execBcdStore_frame x s
  | regDump x => exact execRegDump_frame x s
  | regLoad x => exact execRegLoad_frame x s

/-- Settles O47: each instruction is a chain of the shared operations, and each operation keeps the frame of what its
instruction's row of the access matrix lets it write. -/
theorem onlyTheAccessMatrixIsWritten : Obligations.OnlyTheAccessMatrixIsWritten := by
  unfold Obligations.OnlyTheAccessMatrixIsWritten
  exact exec_frame

end Sys2Proof.Machine
end

section
/-! PROOFS. The machine's invariant: a rule per operation that writes memory, the stack or `pc`, then the instructions,
the cycle whatever its outcome, and the host's moves (spec/10_state.md section 7, spec/60_exceptions.md section 5). -/

namespace Sys2Proof.Machine

/-! ### The invariant, one rule per operation -/

/-- The invariant looks at memory, the stack and `pc` alone. -/
theorem StateInvariant.of_eq {s t : State} (h : StateInvariant s) (hmem : t.mem = s.mem) (hstack : t.stack = s.stack)
    (hpc : t.pc = s.pc) : StateInvariant t := by
  unfold StateInvariant at h ⊢
  rwa [hmem, hstack, hpc]

theorem StateInvariant.slot_le {s : State} (h : StateInvariant s) (k : Fin 16) : s.stack[k.val].toNat ≤ 0xFFE := by
  obtain ⟨-, hslots, -⟩ := h
  exact hslots k

theorem StateInvariant.writePc {s : State} (h : StateInvariant s) {a : Word} (ha : a.toNat ≤ 0x10FE) :
    StateInvariant (writePc s a) := by
  obtain ⟨hmem, hslots, -⟩ := h
  exact ⟨hmem, hslots, ha⟩

theorem StateInvariant.advance {s : State} (h : StateInvariant s) (hpc : s.pc.toNat ≤ 0xFFE) :
    StateInvariant (advance s) := by
  have hnext : (s.pc + 2).toNat = (s.pc.toNat + 2) % 65536 := pc_add_toNat s.pc 2 (by decide)
  exact h.writePc (by omega)

theorem StateInvariant.skipIf {s : State} (h : StateInvariant s) (hpc : s.pc.toNat ≤ 0xFFE) (c : Bool) :
    StateInvariant (skipIf c s) := by
  cases c with
  | false => exact h.advance hpc
  | true =>
    have hskip : (s.pc + 4).toNat = (s.pc.toNat + 4) % 65536 := pc_add_toNat s.pc 4 (by decide)
    exact h.writePc (by omega)

theorem StateInvariant.writeBytes {s : State} (h : StateInvariant s) {base : Nat} {xs : List Byte}
    (hfits : base + xs.length ≤ 4096) : StateInvariant (writeBytes s base xs) := by
  obtain ⟨hmem, hrest⟩ := h
  exact ⟨Memory.wf_write hmem hfits, hrest⟩

/-- A `call` pushes the address it was fetched at (R103). -/
theorem StateInvariant.of_pushPc {s t : State} (h : StateInvariant s) (hpc : s.pc.toNat ≤ 0xFFE)
    (hpush : pushPc s = some t) : StateInvariant t := by
  by_cases hsp : s.sp.val < 16
  · rw [pushPc_of_lt s hsp] at hpush
    obtain rfl := Option.some.inj hpush
    obtain ⟨hmem, hslots, hle⟩ := h
    refine ⟨hmem, fun k => ?_, hle⟩
    by_cases hk : s.sp.val = k.val
    · simpa [hk] using hpc
    · simpa [hk] using hslots k
  · have hfull : s.sp = 16 := Fin.ext (show s.sp.val = 16 by omega)
    simp [pushPc_of_full s hfull] at hpush

theorem StateInvariant.of_popSlot {s t : State} {slot : Word} (h : StateInvariant s)
    (hpop : popSlot s = some (slot, t)) : slot.toNat ≤ 0xFFE ∧ StateInvariant t := by
  by_cases hsp : 0 < s.sp.val
  · rw [popSlot_of_pos s hsp] at hpop
    obtain ⟨rfl, rfl⟩ := Prod.mk.inj (Option.some.inj hpop)
    exact ⟨h.slot_le ⟨s.sp.val - 1, by omega⟩, h.of_eq rfl rfl rfl⟩
  · have hempty : s.sp = 0 := Fin.ext (show s.sp.val = 0 by omega)
    simp [popSlot_of_empty s hempty] at hpop

theorem StateInvariant.timerTick {s : State} (h : StateInvariant s) : StateInvariant (timerTick s) := h.of_eq rfl rfl rfl

/-! ### The invariant of results -/

/-- If the result is a next state, the invariant holds in it. -/
def InvariantOnNext (r : Result) : Prop := ∀ t, r = .next t → StateInvariant t

theorem StateInvariant.onNext {t : State} (h : StateInvariant t) : InvariantOnNext (.next t) := by
  rintro _ ⟨⟩; exact h

theorem invariantOnNext_raise (f : Fault) : InvariantOnNext (raise f) := nofun

/-- What follows the range check may rely on the bytes being in range. -/
theorem invariantOnNext_checkSpan (s : State) {base n : Nat} {r : Result}
    (h : n = 0 ∨ base + n ≤ 4096 → InvariantOnNext r) : InvariantOnNext (checkSpan s base n r) := by
  rcases checkSpan_cases s base n r with ⟨hfits, e⟩ | ⟨-, -, e⟩
  · rw [e]; exact h hfits
  · rw [e]; exact invariantOnNext_raise _

/-! ### The instructions, from a state whose fetch succeeded -/

section
variable {s : State} (h : StateInvariant s)
include h

theorem execRet_invariant : InvariantOnNext (execRet s) := by
  unfold execRet
  cases hpop : popSlot s with
  | none => exact invariantOnNext_raise _
  | some popped =>
    obtain ⟨hslot, ht⟩ := h.of_popSlot hpop
    have hret : (popped.1 + 2).toNat = (popped.1.toNat + 2) % 65536 := pc_add_toNat popped.1 2 (by decide)
    exact (ht.writePc (by omega)).onNext

theorem execJump_invariant (nnn : Addr) : InvariantOnNext (execJump nnn s) := by
  have htarget := zextAddr_toNat nnn
  have hnnn := nnn.isLt
  exact (h.writePc (by omega)).onNext

/-- The largest sum, 0xFF + 0xFFF, is the invariant's bound for `pc` (R108). -/
theorem execJumpOffset_invariant (nnn : Addr) : InvariantOnNext (execJumpOffset nnn s) := by
  have hsum : (zextReg s 0 + zextAddr nnn).toNat = ((readReg s 0).toNat + nnn.toNat) % 65536 := by
    rw [BitVec.toNat_add, zextReg_toNat, zextAddr_toNat]
  have hreg := (readReg s 0).isLt
  have hnnn := nnn.isLt
  exact (h.writePc (by omega)).onNext

variable (hpc : s.pc.toNat ≤ 0xFFE)
include hpc

/-- An instruction that writes neither memory nor the stack and goes on to the next word. -/
theorem invariantOnNext_advance {t : State} (hmem : t.mem = s.mem) (hstack : t.stack = s.stack) (ht : t.pc = s.pc) :
    InvariantOnNext (.next (advance t)) :=
  ((h.of_eq hmem hstack ht).advance (ht ▸ hpc)).onNext

theorem execCall_invariant (nnn : Addr) : InvariantOnNext (execCall nnn s) := by
  have htarget := zextAddr_toNat nnn
  have hnnn := nnn.isLt
  unfold execCall
  cases hpush : pushPc s with
  | none => exact invariantOnNext_raise _
  | some t => exact ((h.of_pushPc hpc hpush).writePc (by omega)).onNext

theorem invariantOnNext_skipIf (c : Bool) : InvariantOnNext (.next (skipIf c s)) := (h.skipIf hpc c).onNext

theorem skipOnKey_invariant (wanted : Bool) (x : Reg) : InvariantOnNext (skipOnKey wanted x s) := by
  unfold skipOnKey
  cases keyOfReg s x with
  | none => exact invariantOnNext_raise _
  | some k => exact invariantOnNext_skipIf h hpc _

theorem execWaitKey_invariant (x : Reg) : InvariantOnNext (execWaitKey x s) := by
  unfold execWaitKey
  cases lowestKey s with
  | none => exact h.onNext
  | some k => exact invariantOnNext_advance h hpc rfl rfl rfl

theorem execDraw_invariant (x y : Reg) (n : Nibble) : InvariantOnNext (execDraw x y n s) :=
  invariantOnNext_checkSpan s fun _ => invariantOnNext_advance h hpc rfl rfl rfl

theorem execBcdStore_invariant (x : Reg) : InvariantOnNext (execBcdStore x s) := by
  refine invariantOnNext_checkSpan s fun hfits => ?_
  have hlen : (bcdDigits (readReg s x)).length = 3 := rfl
  exact ((h.writeBytes (by omega)).advance hpc).onNext

theorem execRegDump_invariant (x : Reg) : InvariantOnNext (execRegDump x s) := by
  refine invariantOnNext_checkSpan s fun hfits => ?_
  have hlen := length_regsUpTo s x
  have hstored : StateInvariant (writeBytes s (indexAddr s) (regsUpTo s x)) := h.writeBytes (by omega)
  exact invariantOnNext_advance hstored hpc rfl rfl rfl

theorem execRegLoad_invariant (x : Reg) : InvariantOnNext (execRegLoad x s) :=
  invariantOnNext_checkSpan s fun _ => invariantOnNext_advance h hpc rfl rfl rfl

theorem exec_invariant (i : Instr) : InvariantOnNext (exec i s) := by
  cases i with
  | ret => exact execRet_invariant h
  | jump nnn => exact execJump_invariant h nnn
  | call nnn => exact execCall_invariant h hpc nnn
  | jumpOffset nnn => exact execJumpOffset_invariant h nnn
  | skipEqImm | skipNeqImm | skipEqReg | skipNeqReg => exact invariantOnNext_skipIf h hpc _
  | skipIfKey x | skipIfNotKey x => exact skipOnKey_invariant h hpc _ x
  | waitKey x => exact execWaitKey_invariant h hpc x
  | draw x y n => exact execDraw_invariant h hpc x y n
  | bcdStore x => exact execBcdStore_invariant h hpc x
  | regDump x => exact execRegDump_invariant h hpc x
  | regLoad x => exact execRegLoad_invariant h hpc x
  | clearScreen | setImm | addImm | assign | or | and | xor | addReg | subReg | shiftRight | subRegRev | shiftLeft
  | setIndex | addIndex | fontAddress | random | getDelay | setDelay | setSound =>
    exact invariantOnNext_advance h hpc rfl rfl rfl

end

/-! ### Cycles and host moves -/

theorem runInstruction_invariant {s : State} (h : StateInvariant s) : InvariantOnNext (runInstruction s) := by
  rcases runInstruction_cases s with ⟨-, e⟩ | ⟨-, -, e⟩ | ⟨i, ⟨hpc, -⟩, e⟩ <;> rw [e]
  · exact invariantOnNext_raise _
  · exact invariantOnNext_raise _
  · exact exec_invariant h hpc i

/-- A cycle of any outcome: past an error only the timers have ticked (R95, D11). -/
theorem cycle_invariant {s : State} (h : StateInvariant s) : StateInvariant (cycle s).after := by
  unfold cycle
  cases e : runInstruction s with
  | next t => exact (runInstruction_invariant h t e).timerTick
  | fault f => exact h.timerTick
  | refused r => exact h.timerTick

theorem stateInvariant_reset : StateInvariant State.reset :=
  ⟨rfl, by decide, by decide⟩

theorem hostReset_invariant (s : State) : StateInvariant (hostReset s) := stateInvariant_reset.of_eq rfl rfl rfl

/-- A program that is not refused ends at or below 0xFFF (R204). -/
theorem hostLoad_invariant (bytes : List Byte) (s : State) : StateInvariant (hostLoad bytes s).1 := by
  unfold hostLoad
  split
  · exact hostReset_invariant s
  next hfits =>
    simp only [Config.maxProgram] at hfits
    exact (hostReset_invariant s).writeBytes (by simp only [Config.programBase]; omega)

theorem hostMove_invariant {s : State} (h : StateInvariant s) (move : HostMove) : StateInvariant (hostMove s move) := by
  cases move with
  | reset => exact hostReset_invariant s
  | load bytes => exact hostLoad_invariant bytes s
  | setKey k pressed => exact h.of_eq rfl rfl rfl
  | clearRedraw => exact h.of_eq rfl rfl rfl
  | cycle => exact cycle_invariant h

/-- Settles O50, by induction on the moves: each keeps the invariant, a cycle through the instruction it executes. -/
theorem hostMovesKeepTheInvariant : Obligations.HostMovesKeepTheInvariant := by
  unfold Obligations.HostMovesKeepTheInvariant
  intro s moves h
  induction moves generalizing s with
  | nil => exact h
  | cons move moves ih => exact ih _ (hostMove_invariant h move)

end Sys2Proof.Machine
end

section
/-! PROOFS. What an instruction cannot read: the sound timer, `redraw`, the tone and, but for the three key instructions, the
key latch (spec/10_state.md R28, R30, R33, R35). The one theorem, `Unobserved.exec`, is about any relation that lets two states
differ in no more than those; both noninterference statements are uses of it. -/

namespace Sys2Proof.Machine

/-! ### Related states and related results -/

/-- `R` relates only states that differ in the latch, `ST`, `redraw` and the tone at most, and still relates them after the same
write to both. -/
structure Unobserved (R : State → State → Prop) : Prop where
  differ {s s' : State} : R s s' →
    ∃ latch soundTimer redraw tone, s' = { s with key := latch, st := soundTimer, redraw := redraw, tone := tone }
  update {s s' : State} : R s s' → ∀ mem v index pc stack sp dt px rndCount,
    R { s with mem, v, index, pc, stack, sp, dt, px, rndCount } { s' with mem, v, index, pc, stack, sp, dt, px, rndCount }
  setSt {s s' : State} : R s s' → ∀ soundTimer, R { s with st := soundTimer } { s' with st := soundTimer }
  setRedraw {s s' : State} : R s s' → ∀ redraw, R { s with redraw := redraw } { s' with redraw := redraw }

/-- Results of the same kind: related next states, or the same fault or refusal. -/
inductive RelatedResults (R : State → State → Prop) : Result → Result → Prop where
  | next {t t' : State} (h : R t t') : RelatedResults R (.next t) (.next t')
  | fault (f : Fault) : RelatedResults R (.fault f) (.fault f)
  | refused (r : Refusal) : RelatedResults R (.refused r) (.refused r)

section
variable {R : State → State → Prop} {s s' : State}

theorem RelatedResults.checkSpan {r r' : Result} (h : RelatedResults R r r') (hpc : s'.pc = s.pc) (base n : Nat) :
    RelatedResults R (checkSpan s base n r) (checkSpan s' base n r') := by
  unfold Machine.checkSpan
  split
  · rw [hpc]; exact .fault _
  · exact h

/-! ### The instructions -/

section
variable (hR : Unobserved R) (h : R s s')
include hR h

theorem Unobserved.skipIf (c : Bool) : RelatedResults R (.next (skipIf c s)) (.next (skipIf c s')) := by
  obtain ⟨_, _, _, _, rfl⟩ := hR.differ h
  cases c <;> exact .next (hR.update h ..)

theorem Unobserved.execRet : RelatedResults R (execRet s) (execRet s') := by
  obtain ⟨_, _, _, _, rfl⟩ := hR.differ h
  unfold Machine.execRet
  by_cases hsp : 0 < s.sp.val
  · rw [popSlot_of_pos s hsp, popSlot_of_pos _ (by exact hsp)]
    exact .next (hR.update h ..)
  · have hempty : s.sp = 0 := Fin.ext (show s.sp.val = 0 by omega)
    rw [popSlot_of_empty s hempty, popSlot_of_empty _ (by exact hempty)]
    exact .fault _

theorem Unobserved.execCall (nnn : Addr) : RelatedResults R (execCall nnn s) (execCall nnn s') := by
  obtain ⟨_, _, _, _, rfl⟩ := hR.differ h
  unfold Machine.execCall
  by_cases hsp : s.sp.val < 16
  · rw [pushPc_of_lt s hsp, pushPc_of_lt _ (by exact hsp)]
    exact .next (hR.update h ..)
  · have hfull : s.sp = 16 := Fin.ext (show s.sp.val = 16 by omega)
    rw [pushPc_of_full s hfull, pushPc_of_full _ (by exact hfull)]
    exact .fault _

theorem Unobserved.execDraw (x y : Reg) (n : Nibble) : RelatedResults R (execDraw x y n s) (execDraw x y n s') := by
  obtain ⟨_, _, _, _, rfl⟩ := hR.differ h
  exact (RelatedResults.next (hR.update (hR.setRedraw h true) ..)).checkSpan rfl _ _

theorem Unobserved.skipOnKey (hkey : s'.key = s.key) (wanted : Bool) (x : Reg) :
    RelatedResults R (skipOnKey wanted x s) (skipOnKey wanted x s') := by
  obtain ⟨latch, soundTimer, redraw, tone, rfl⟩ := hR.differ h
  obtain rfl : latch = s.key := hkey
  have hnamed : keyOfReg { s with key := s.key, st := soundTimer, redraw := redraw, tone := tone } x = keyOfReg s x := rfl
  unfold Machine.skipOnKey
  rw [hnamed]
  cases keyOfReg s x with
  | none => exact .fault _
  | some k => exact hR.skipIf h _

theorem Unobserved.execWaitKey (hkey : s'.key = s.key) (x : Reg) :
    RelatedResults R (execWaitKey x s) (execWaitKey x s') := by
  obtain ⟨latch, soundTimer, redraw, tone, rfl⟩ := hR.differ h
  obtain rfl : latch = s.key := hkey
  have hlowest : lowestKey { s with key := s.key, st := soundTimer, redraw := redraw, tone := tone } = lowestKey s := rfl
  unfold Machine.execWaitKey
  rw [hlowest]
  cases lowestKey s with
  | none => exact .next h
  | some k => exact .next (hR.update h ..)

/-- Related states give related results, where the latch is the same or the instruction is none of the three that read it. -/
theorem Unobserved.exec (i : Instr) (hkey : readsKeys i = true → s'.key = s.key) :
    RelatedResults R (exec i s) (exec i s') := by
  obtain ⟨_, _, _, _, rfl⟩ := hR.differ h
  cases i with
  | ret => exact hR.execRet h
  | call nnn => exact hR.execCall h nnn
  | skipEqImm | skipNeqImm | skipEqReg | skipNeqReg => exact hR.skipIf h _
  | skipIfKey x | skipIfNotKey x => exact hR.skipOnKey h (hkey rfl) _ x
  | waitKey x => exact hR.execWaitKey h (hkey rfl) x
  | draw x y n => exact hR.execDraw h x y n
  | bcdStore | regDump | regLoad => exact (RelatedResults.next (hR.update h ..)).checkSpan rfl _ _
  | setSound x => exact .next (hR.update (hR.setSt h _) ..)
  | clearScreen | jump | setImm | addImm | assign | or | and | xor | addReg | subReg | shiftRight | subRegRev | shiftLeft
  | setIndex | jumpOffset | random | getDelay | setDelay | addIndex | fontAddress => exact .next (hR.update h ..)

theorem Unobserved.dispatchWord (hkey : s'.key = s.key) (w : Word) :
    RelatedResults R (dispatchWord w s) (dispatchWord w s') := by
  have hexec := fun i => hR.exec h i fun _ => hkey
  obtain ⟨_, _, _, _, rfl⟩ := hR.differ h
  unfold Machine.dispatchWord
  cases decodeWord w with
  | error e => exact .fault _
  | ok i => exact hexec i

/-- The fetch reads memory and `pc` alone (R91). -/
theorem Unobserved.runInstruction (hkey : s'.key = s.key) :
    RelatedResults R (runInstruction s) (runInstruction s') := by
  have hdispatch := hR.dispatchWord h hkey (fetchedWord s)
  obtain ⟨_, _, _, _, rfl⟩ := hR.differ h
  exact hdispatch.checkSpan rfl _ _

end
end

/-! ### The key latch -/

theorem unobserved_latch (latch : Vector Bool 16) : Unobserved fun s s' => s' = { s with key := latch } where
  differ h := ⟨latch, _, _, _, h⟩
  update := by rintro s _ rfl; intros; rfl
  setSt := by rintro s _ rfl _; rfl
  setRedraw := by rintro s _ rfl _; rfl

/-- Settles O57: a state and the same with another latch are related by a relation no other instruction observes. -/
theorem onlyKeyInstructionsReadTheLatch : Obligations.OnlyKeyInstructionsReadTheLatch := by
  unfold Obligations.OnlyKeyInstructionsReadTheLatch
  intro i s latch hkeys
  have hrelated := (unobserved_latch latch).exec (s := s) rfl i fun h => absurd h (by simp [hkeys])
  generalize exec i s = r, exec i { s with key := latch } = r' at hrelated ⊢
  cases hrelated with
  | next h => exact congrArg _ h
  | fault f => rfl
  | refused r => rfl

/-! ### The outputs -/

/-- The two states agree but for `ST`, `redraw` and the tone. -/
def SameButOutputs (s s' : State) : Prop := withoutOutputs s = withoutOutputs s'

theorem SameButOutputs.key_eq {s s' : State} (h : SameButOutputs s s') : s'.key = s.key :=
  (congrArg State.key h).symm

theorem unobserved_outputs : Unobserved SameButOutputs where
  differ {_ s'} h :=
    ⟨s'.key, s'.st, s'.redraw, s'.tone,
      congrArg (fun t : State => { t with key := s'.key, st := s'.st, redraw := s'.redraw, tone := s'.tone }) h.symm⟩
  update h mem v index pc stack sp dt px rndCount :=
    congrArg (fun t => { t with mem, v, index, pc, stack, sp, dt, px, rndCount } : State → State) h
  setSt h _ := h
  setRedraw h _ := h

theorem SameButOutputs.timerTick {s s' : State} (h : SameButOutputs s s') : SameButOutputs (timerTick s) (timerTick s') :=
  congrArg (fun t => { t with dt := countDown t.dt } : State → State) h

theorem SameButOutputs.cycle {s s' : State} (h : SameButOutputs s s') :
    SameButOutputs (cycle s).after (cycle s').after ∧ (cycle s).outcome = (cycle s').outcome := by
  have hrelated := unobserved_outputs.runInstruction h h.key_eq
  unfold Machine.cycle
  generalize runInstruction s = r, runInstruction s' = r' at hrelated ⊢
  cases hrelated with
  | next ht => exact ⟨ht.timerTick, rfl⟩
  | fault f => exact ⟨h.timerTick, rfl⟩
  | refused r => exact ⟨h.timerTick, rfl⟩

theorem SameButOutputs.afterCycles {s s' : State} (h : SameButOutputs s s') (k : Nat) :
    SameButOutputs (afterCycles k s) (afterCycles k s') := by
  induction k generalizing s s' with
  | zero => exact h
  | succ k ih => exact ih h.cycle.1

/-- Settles O56: that the states agree but for the outputs is kept by every cycle, and such states have the same outcome. -/
theorem outputsNeverInfluenceTheProgram : Obligations.OutputsNeverInfluenceTheProgram := by
  unfold Obligations.OutputsNeverInfluenceTheProgram
  intro k s s' h
  have hafter : SameButOutputs (afterCycles k s) (afterCycles k s') := SameButOutputs.afterCycles h k
  exact ⟨hafter, hafter.cycle.2⟩

end Sys2Proof.Machine
end

section
/-! PROOFS. The timer instructions (spec/45_timer_input.md section 2) and the host's two writes between cycles
(spec/10_state.md section 7). -/

namespace Sys2Proof.Machine

theorem pcPlus_advance {s t : State} (h : t.pc = s.pc) : PcPlus 2 s (advance t) := by
  unfold PcPlus
  rw [advance_pc, h]
  exact pc_add_toNat s.pc 2 (by decide)

/-- Settles O45: each is one copy and then `advance`, within its row of the access matrix. -/
theorem timerInstructionsCopyWholeBytes : Obligations.TimerInstructionsCopyWholeBytes := by
  unfold Obligations.TimerInstructionsCopyWholeBytes
  intro x s
  refine ⟨⟨_, rfl, ?_, ?_, ?_⟩, ⟨_, rfl, ?_, ?_, ?_⟩, ⟨_, rfl, ?_, ?_, ?_⟩⟩
  · exact exec_frame (.getDelay x) s _ rfl
  · exact readReg_writeReg_self s x s.dt
  · exact pcPlus_advance rfl
  · exact exec_frame (.setDelay x) s _ rfl
  · rfl
  · exact pcPlus_advance rfl
  · exact exec_frame (.setSound x) s _ rfl
  · rfl
  · exact pcPlus_advance rfl

theorem hostSetKey_getElem (k : Key) (pressed : Bool) (s : State) (j : Key) :
    (hostSetKey k pressed s).key[j.val] = if j = k then pressed else s.key[j.val] := by
  simp only [hostSetKey_key, Vector.getElem_set, Fin.ext_iff, eq_comm]

/-- Settles O58. -/
theorem hostWritesOnlyLatchAndRedraw : Obligations.HostWritesOnlyLatchAndRedraw := by
  unfold Obligations.HostWritesOnlyLatchAndRedraw
  intro s k pressed
  exact ⟨hostSetKey_getElem k pressed s, rfl, rfl, rfl⟩

end Sys2Proof.Machine
end

section
/-! PROOFS. Fetch and store through the cycle: the decoded instruction runs, the invariant is kept, and stored bytes are the
next word fetched (spec/20_memory.md R50, R54, R60, R63; spec/40_cycle.md R90 to R94). -/

namespace Sys2Proof.Machine

/-! ### The invariant along a step -/

/-- Settles O48: a step to a next state is the decoded instruction and then the tick, and each keeps the invariant. -/
theorem everyStepKeepsTheInvariant : Obligations.EveryStepKeepsTheInvariant := by
  unfold Obligations.EveryStepKeepsTheInvariant
  intro s t h hstep
  obtain ⟨i, u, ⟨hpc, -⟩, hexec, rfl⟩ := step_next hstep
  exact (exec_invariant h hpc i u hexec).timerTick

/-! ### The fetched word and the executed instruction -/

/-- Big-endian (R54). -/
theorem wordOfBytes_toNat (hi lo : Byte) : (wordOfBytes hi lo).toNat = 256 * hi.toNat + lo.toNat := by
  have hlo : lo.toNat < 2 ^ 8 := lo.isLt
  rw [wordOfBytes, BitVec.toNat_append, ← Nat.shiftLeft_add_eq_or_of_lt hlo, Nat.shiftLeft_eq]
  omega

theorem decodeBytes_cons_cons (hi lo : Byte) (rest : List Byte) :
    decodeBytes (hi :: lo :: rest) = (decodeWord (wordOfBytes hi lo)).map fun i => (i, rest) := by
  rw [decodeBytes]
  cases decodeWord (wordOfBytes hi lo) with
  | ok i => rfl
  | error e => rfl

/-- The byte decoder at `pc` reads the fetched word. -/
theorem decodeWord_fetchedWord {s : State} {i : Instr} {rest : List Byte}
    (h : decodeBytes (Memory.read s.mem s.pc.toNat 2) = .ok (i, rest)) : decodeWord (fetchedWord s) = .ok i := by
  have hread := (decodeBytes_cons_cons _ _ _).symm.trans h
  rw [fetchedWord]
  generalize decodeWord (wordOfBytes _ _) = decoded at hread ⊢
  cases decoded with
  | ok j => cases hread; rfl
  | error e => cases hread

theorem runInstruction_of_executes {s : State} {i : Instr} (h : Executes s i) : runInstruction s = exec i s := by
  obtain ⟨hpc, hd⟩ := h
  rw [runInstruction, checkSpan_of_fits (.inr (by omega)), dispatchWord, hd]

/-- Settles O7: the bytes decode to `i` as the fetched word does, so the cycle executes `i`; the step then follows its result. -/
theorem stepRunsTheDecodedInstruction : Obligations.StepRunsTheDecodedInstruction := by
  unfold Obligations.StepRunsTheDecodedInstruction
  intro s i hpc hdecode
  have hexecutes : Executes s i := ⟨hpc, decodeWord_fetchedWord hdecode⟩
  refine ⟨hexecutes, wordOfBytes_toNat _ _, ?_⟩
  rw [step, cycle, runInstruction_of_executes hexecutes]
  cases exec i s with
  | next t => rfl
  | fault f => rfl
  | refused r => rfl

/-! ### Stored bytes -/

theorem exec_regDump_of_fits {x : Reg} {s : State} (h : s.index.toNat + x.val ≤ 0xFFF) :
    exec (.regDump x) s = .next (advance (bumpIndex (writeBytes s (indexAddr s) (regsUpTo s x)) x)) :=
  checkSpan_of_fits (.inr (by rw [indexAddr]; omega)) s _

/-- Byte `k` of a dump at `base` is `V[k]` (R145). -/
theorem get_write_regsUpTo (s : State) (base : Nat) {x k : Reg} (h : k.val ≤ x.val) :
    Memory.get (Memory.write s.mem base (regsUpTo s x)) (base + k.val) = readReg s k := by
  have hlen := length_regsUpTo s x
  rw [Memory.get_write, if_pos (by omega), Nat.add_sub_cancel_left, regsUpTo_getD s x k h]

/-- Settles O55: the cycle leaves `pc` two bytes on, where the dump has put `V[k]` and then `V[j]`. -/
theorem storedBytesAreFetchedNext : Obligations.StoredBytesAreFetchedNext := by
  unfold Obligations.StoredBytesAreFetchedNext
  intro x k j s hexecutes hfits hj hjx hplace
  have hrun := (runInstruction_of_executes hexecutes).trans (exec_regDump_of_fits hfits)
  obtain ⟨hpc, -⟩ := hexecutes
  have hnext : (s.pc + 2).toNat = (s.pc.toNat + 2) % 65536 := pc_add_toNat s.pc 2 (by decide)
  have hfirst : (s.pc + 2).toNat = indexAddr s + k.val := by rw [indexAddr]; omega
  have hsecond : (s.pc + 2).toNat + 1 = indexAddr s + j.val := by omega
  have hmem : (cycle s).after.mem = Memory.write s.mem (indexAddr s) (regsUpTo s x) := by rw [cycle_of_next hrun]; rfl
  have hafter : (cycle s).after.pc = s.pc + 2 := by rw [cycle_of_next hrun]; rfl
  rw [fetchedWord, hmem, hafter, hsecond, hfirst, get_write_regsUpTo s _ (by omega), get_write_regsUpTo s _ hjx]

end Sys2Proof.Machine
end

section
/-! PROOFS. The round trip through the encoder, the words the spec writes out (spec/30_encoding.md R70 to R85), and the register
skips (spec/41_control_flow.md R100, R106, R107). -/

namespace Sys2Proof.Machine

/-! ### The groups with a second selector (R77 to R79) -/

theorem decodeWord_of_group8 {w : Word} (h : groupOf w = 0x8) : decodeWord w = decodeGroup8 w := by rw [decodeWord, h]; rfl

theorem decodeWord_of_groupE {w : Word} (h : groupOf w = 0xE) : decodeWord w = decodeGroupE w := by rw [decodeWord, h]; rfl

theorem decodeWord_of_groupF {w : Word} (h : groupOf w = 0xF) : decodeWord w = decodeGroupF w := by rw [decodeWord, h]; rfl

/-! ### Decode of encode -/

/-- One case per format of R71 and selector: the decoder finds in each word the fields the encoder put there. -/
theorem decodeWord_encode (i : Instr) : decodeWord (encode i) = .ok i := by
  cases i with
  | clearScreen | ret => rfl
  | jump | call | setIndex | jumpOffset =>
    simp only [encode, decodeWord, groupOf_wordA, fieldNNN_wordA]
    rfl
  | skipEqImm | skipNeqImm | setImm | addImm | random =>
    simp only [encode, decodeWord, groupOf_wordXB, fieldX_wordXB, fieldNN_wordXB]
    rfl
  | skipEqReg | skipNeqReg | draw =>
    simp only [encode, decodeWord, groupOf_wordXYN, fieldX_wordXYN, fieldY_wordXYN, fieldN_wordXYN]
    rfl
  | assign | or | and | xor | addReg | subReg | subRegRev =>
    rw [encode, decodeWord_of_group8 (groupOf_wordXYN ..)]
    simp only [decodeGroup8, fieldX_wordXYN, fieldY_wordXYN, fieldN_wordXYN]
    rfl
  | shiftRight | shiftLeft =>
    rw [encode, decodeWord_of_group8 (groupOf_wordXYN ..)]
    simp only [decodeGroup8, fieldX_wordXYN, nibbleY_wordXYN, fieldN_wordXYN]
    rfl
  | skipIfKey | skipIfNotKey =>
    rw [encode, decodeWord_of_groupE (groupOf_wordXB ..)]
    simp only [decodeGroupE, fieldX_wordXB, fieldNN_wordXB]
    rfl
  | getDelay | waitKey | setDelay | setSound | addIndex | fontAddress | bcdStore | regDump | regLoad =>
    rw [encode, decodeWord_of_groupF (groupOf_wordXB ..)]
    simp only [decodeGroupF, fieldX_wordXB, fieldNN_wordXB]
    rfl

/-- Decoding bytes is decoding the word they lay out (R54, R70). -/
theorem decodeBytes_bytesOfWord_append (w : Word) (rest : List Byte) :
    decodeBytes (bytesOfWord w ++ rest) = (decodeWord w).map fun i => (i, rest) := by
  have hbytes := decodeBytes_cons_cons (w.extractLsb' 8 8) (w.extractLsb' 0 8) rest
  rwa [wordOfBytes_bytesOfWord] at hbytes

/-- Settles O1: the word decodes to its instruction, and the bytes decode as the word does. -/
theorem decodeInvertsEncode : Obligations.DecodeInvertsEncode := by
  unfold Obligations.DecodeInvertsEncode
  intro i rest
  have hword := decodeWord_encode i
  refine ⟨hword, ?_⟩
  rw [decodeBytes_bytesOfWord_append, hword]
  rfl

/-! ### Words written out -/

/-- Settles O3: ten fixed words, each decoded by evaluation. -/
theorem writtenOutWordsDecode : Obligations.WrittenOutWordsDecode := by
  unfold Obligations.WrittenOutWordsDecode
  decide

/-! ### The register skips -/

theorem pcPlus_skipIf (c : Bool) (s : State) : PcPlus (if c then 4 else 2) s (skipIf c s) := by
  cases c with
  | true => exact pc_add_toNat s.pc 4 (by decide)
  | false => exact pcPlus_advance rfl

theorem pcPlus_skipIf_beq (a b : Byte) (s : State) :
    PcPlus (if a.toNat = b.toNat then 4 else 2) s (skipIf (a == b) s) := by
  simpa only [beq_iff_eq, BitVec.toNat_inj] using pcPlus_skipIf (a == b) s

theorem pcPlus_skipIf_bne (a b : Byte) (s : State) :
    PcPlus (if a.toNat = b.toNat then 2 else 4) s (skipIf (a != b) s) := by
  simpa only [bne_iff_ne, ne_eq, ite_not, BitVec.toNat_inj] using pcPlus_skipIf (a != b) s

/-- Settles O21: each is one `skipIf` on the comparison, and the ignored nibble reaches no meaning. -/
theorem registerSkipsAddFourOrTwo : Obligations.RegisterSkipsAddFourOrTwo := by
  unfold Obligations.RegisterSkipsAddFourOrTwo
  intro x y ignored s
  refine ⟨⟨_, rfl, ?_, ?_⟩, ⟨_, rfl, ?_, ?_⟩⟩
  · exact exec_frame (.skipEqReg x y ignored) s _ rfl
  · exact pcPlus_skipIf_beq (readReg s x) (readReg s y) s
  · exact exec_frame (.skipNeqReg x y ignored) s _ rfl
  · exact pcPlus_skipIf_bne (readReg s x) (readReg s y) s

end Sys2Proof.Machine
end

section
/-! PROOFS. The outcome of a cycle and its timer tick: no instruction is refused, every cycle ticks the timers its instruction
left, and so they count cycles (spec/40_cycle.md R90 to R97; spec/90_conflicts.md C3). -/

namespace Sys2Proof.Machine

/-! ### No refusal -/

/-- The result is a next state or a fault. -/
def CompletesOrErrs (r : Result) : Prop := (∃ t, r = .next t) ∨ ∃ f, r = .fault f

theorem completesOrErrs_next (t : State) : CompletesOrErrs (.next t) := .inl ⟨t, rfl⟩

theorem completesOrErrs_fault (f : Fault) : CompletesOrErrs (.fault f) := .inr ⟨f, rfl⟩

theorem CompletesOrErrs.checkSpan {r : Result} (h : CompletesOrErrs r) (s : State) (base n : Nat) :
    CompletesOrErrs (checkSpan s base n r) := by
  rcases checkSpan_cases s base n r with ⟨-, e⟩ | ⟨-, -, e⟩
  · rw [e]; exact h
  · rw [e]; exact completesOrErrs_fault _

theorem execRet_completesOrErrs (s : State) : CompletesOrErrs (execRet s) := by
  unfold execRet
  cases popSlot s with
  | none => exact completesOrErrs_fault _
  | some popped => exact completesOrErrs_next _

theorem execCall_completesOrErrs (nnn : Addr) (s : State) : CompletesOrErrs (execCall nnn s) := by
  unfold execCall
  cases pushPc s with
  | none => exact completesOrErrs_fault _
  | some t => exact completesOrErrs_next _

theorem skipOnKey_completesOrErrs (wanted : Bool) (x : Reg) (s : State) : CompletesOrErrs (skipOnKey wanted x s) := by
  unfold skipOnKey
  cases keyOfReg s x with
  | none => exact completesOrErrs_fault _
  | some k => exact completesOrErrs_next _

theorem execWaitKey_completesOrErrs (x : Reg) (s : State) : CompletesOrErrs (execWaitKey x s) := by
  unfold execWaitKey
  cases lowestKey s with
  | none => exact completesOrErrs_next s
  | some k => exact completesOrErrs_next _

theorem exec_completesOrErrs (i : Instr) (s : State) : CompletesOrErrs (exec i s) := by
  cases i with
  | ret => exact execRet_completesOrErrs s
  | call nnn => exact execCall_completesOrErrs nnn s
  | skipIfKey x | skipIfNotKey x => exact skipOnKey_completesOrErrs _ x s
  | waitKey x => exact execWaitKey_completesOrErrs x s
  | draw | bcdStore | regDump | regLoad => exact (completesOrErrs_next _).checkSpan s _ _
  | clearScreen | jump | skipEqImm | skipNeqImm | skipEqReg | setImm | addImm | assign | or | and | xor | addReg | subReg
  | shiftRight | subRegRev | shiftLeft | skipNeqReg | setIndex | jumpOffset | random | getDelay | setDelay | setSound
  | addIndex | fontAddress => exact completesOrErrs_next _

theorem runInstruction_completesOrErrs (s : State) : CompletesOrErrs (runInstruction s) := by
  rcases runInstruction_cases s with ⟨-, e⟩ | ⟨-, -, e⟩ | ⟨i, -, e⟩ <;> rw [e]
  · exact completesOrErrs_fault _
  · exact completesOrErrs_fault _
  · exact exec_completesOrErrs i s

/-- Settles O15: an instruction ends in a next state or in `raise`, alone or behind the range check. -/
theorem everyInstructionCompletesOrErrs : Obligations.EveryInstructionCompletesOrErrs := by
  unfold Obligations.EveryInstructionCompletesOrErrs
  exact exec_completesOrErrs

/-! ### The tick of one cycle -/

theorem timerTick_dt_toNat (s : State) : (timerTick s).dt.toNat = s.dt.toNat - 1 := countDown_toNat s.dt

theorem timerTick_st_toNat (s : State) : (timerTick s).st.toNat = s.st.toNat - 1 := countDown_toNat s.st

theorem timerTick_tone_eq_true (s : State) : (timerTick s).tone = true ↔ s.st.toNat = 1 := by
  simpa using (BitVec.toNat_inj (x := s.st) (y := 1)).symm

/-- Every cycle ends in the tick, whatever its outcome (R94 to R96). -/
theorem cycle_after_eq_timerTick {s u : State}
    (h : runInstruction s = .next u ∨ ((∃ f, runInstruction s = .fault f) ∧ u = s)) :
    (cycle s).after = timerTick u := by
  rcases h with hnext | ⟨⟨f, hfault⟩, rfl⟩
  · rw [cycle_of_next hnext]
  · rw [cycle_of_fault hfault]

theorem step_of_next {s t : State} (h : runInstruction s = .next t) : step s = .next (timerTick t) := by
  rw [step, cycle_of_next h]; rfl

/-- Settles O12: the cycle is the tick of the state its instruction left; `get-delay` has copied `DT` by then. -/
theorem everyCycleTicksTheTimers : Obligations.EveryCycleTicksTheTimers := by
  unfold Obligations.EveryCycleTicksTheTimers
  refine ⟨fun s u hu => ?_, runInstruction_completesOrErrs, fun x s hexecutes => ?_⟩
  · rw [cycle_after_eq_timerTick hu]
    exact ⟨timerTick_dt_toNat u, timerTick_st_toNat u, timerTick_tone_eq_true u⟩
  · have hrun : runInstruction s = .next (advance (writeReg s x s.dt)) := runInstruction_of_executes hexecutes
    rw [cycle_after_eq_timerTick (.inl hrun)]
    exact ⟨readReg_writeReg_self s x s.dt, timerTick_dt_toNat _⟩

/-- Settles O46: the instruction leaves `V[x]` in the timer, and the step is the tick of that state. -/
theorem timerWriteIsTickedInItsOwnCycle : Obligations.TimerWriteIsTickedInItsOwnCycle := by
  unfold Obligations.TimerWriteIsTickedInItsOwnCycle
  refine fun x s => ⟨fun hexecutes => ?_, fun hexecutes => ?_⟩
  · have hrun : runInstruction s = .next (advance { s with dt := readReg s x }) := runInstruction_of_executes hexecutes
    exact ⟨_, step_of_next hrun, timerTick_dt_toNat _⟩
  · have hrun : runInstruction s = .next (advance { s with st := readReg s x }) := runInstruction_of_executes hexecutes
    exact ⟨_, step_of_next hrun, timerTick_st_toNat _, timerTick_tone_eq_true _⟩

/-! ### The timers over many cycles -/

/-- The state a cycle ticks is the one before it, or the one its instruction left within its row of the access matrix. -/
theorem exists_framed_ticked (s : State) :
    ∃ u, (cycle s).after = timerTick u ∧ (u = s ∨ ∃ i, Executes s i ∧ Frame (writesOf i s) s u) := by
  rcases runInstruction_completesOrErrs s with ⟨u, hnext⟩ | hfault
  · refine ⟨u, cycle_after_eq_timerTick (.inl hnext), .inr ?_⟩
    rcases runInstruction_cases s with ⟨-, e⟩ | ⟨-, -, e⟩ | ⟨i, hi, e⟩ <;> rw [e] at hnext
    · cases hnext
    · cases hnext
    · exact ⟨i, hi, exec_frame i s u hnext⟩
  · exact ⟨s, cycle_after_eq_timerTick (.inr ⟨hfault, rfl⟩), .inl rfl⟩

theorem writesOf_dt_eq_false {i : Instr} (h : ∀ x, i ≠ .setDelay x) (s : State) : (writesOf i s).dt = false := by
  cases i with
  | setDelay x => exact absurd rfl (h x)
  | _ => rfl

theorem writesOf_st_eq_false {i : Instr} (h : ∀ x, i ≠ .setSound x) (s : State) : (writesOf i s).st = false := by
  cases i with
  | setSound x => exact absurd rfl (h x)
  | _ => rfl

theorem cycle_dt_of_not_setDelay {s : State} (h : ∀ x, ¬ Executes s (.setDelay x)) :
    (cycle s).after.dt.toNat = s.dt.toNat - 1 := by
  obtain ⟨u, hafter, hu⟩ := exists_framed_ticked s
  have hdt : u.dt = s.dt := by
    rcases hu with rfl | ⟨i, hi, -, -, -, -, -, hdt, -⟩
    · rfl
    · exact hdt (writesOf_dt_eq_false (fun x hx => h x (hx ▸ hi)) s)
  rw [hafter, timerTick_dt_toNat, hdt]

theorem cycle_st_of_not_setSound {s : State} (h : ∀ x, ¬ Executes s (.setSound x)) :
    (cycle s).after.st.toNat = s.st.toNat - 1 ∧ ((cycle s).after.tone = true ↔ s.st.toNat = 1) := by
  obtain ⟨u, hafter, hu⟩ := exists_framed_ticked s
  have hst : u.st = s.st := by
    rcases hu with rfl | ⟨i, hi, -, -, -, -, -, -, hst, -⟩
    · rfl
    · exact hst (writesOf_st_eq_false (fun x hx => h x (hx ▸ hi)) s)
  rw [hafter, timerTick_st_toNat, timerTick_tone_eq_true, hst]
  exact ⟨rfl, Iff.rfl⟩

/-- The last cycle of a run, where the definition takes out the first. -/
theorem afterCycles_succ (k : Nat) (s : State) : afterCycles (k + 1) s = (cycle (afterCycles k s)).after := by
  induction k generalizing s with
  | zero => rfl
  | succ k ih => exact ih (cycle s).after

/-- A timer that each of `k` cycles counts down by 1 goes down by `k`, to 0 at the least (R97). -/
theorem afterCycles_counts_down (timer : State → Byte) {k : Nat} {s : State}
    (h : ∀ j < k, (timer (cycle (afterCycles j s)).after).toNat = (timer (afterCycles j s)).toNat - 1) :
    (timer (afterCycles k s)).toNat = (timer s).toNat - k := by
  induction k with
  | zero => rfl
  | succ k ih =>
    have hbefore := ih fun j hj => h j (by omega)
    rw [afterCycles_succ, h k (by omega), hbefore, Nat.sub_sub]

theorem afterCycles_dt {k : Nat} {s : State} (h : ∀ j < k, ∀ x, ¬ Executes (afterCycles j s) (.setDelay x)) :
    (afterCycles k s).dt.toNat = s.dt.toNat - k :=
  afterCycles_counts_down State.dt fun j hj => cycle_dt_of_not_setDelay (h j hj)

theorem afterCycles_st {k : Nat} {s : State} (h : ∀ j < k, ∀ x, ¬ Executes (afterCycles j s) (.setSound x)) :
    (afterCycles k s).st.toNat = s.st.toNat - k :=
  afterCycles_counts_down State.st fun j hj => (cycle_st_of_not_setSound (h j hj)).1

/-- Settles O13: without its writing instruction a cycle counts a timer down by 1, so `k` cycles by `k`; the tone of cycle
`k + 1` is then a tick that finds `ST - k`. -/
theorem timersCountCycles : Obligations.TimersCountCycles := by
  unfold Obligations.TimersCountCycles
  refine fun k s => ⟨afterCycles_dt, afterCycles_st, fun h => ?_⟩
  have hst : (afterCycles k s).st.toNat = s.st.toNat - k := afterCycles_st fun j hj => h j (by omega)
  obtain ⟨-, htone⟩ := cycle_st_of_not_setSound (h k (by omega))
  rw [afterCycles_succ, htone, hst]
  omega

end Sys2Proof.Machine
end

section
/-! PROOFS. `jump`, `call` and the immediate skips (spec/41_control_flow.md R102 to R105; spec/60_exceptions.md R172). -/

namespace Sys2Proof.Machine

/-! ### The word of an address format (R71) -/

/-- Group and address as one number: the group is the top digit. -/
theorem wordA_eq_ofNat (g : Nibble) (nnn : Addr) : wordA g nnn = BitVec.ofNat 16 (0x1000 * g.toNat + nnn.toNat) := by
  have hnnn : nnn.toNat < 2 ^ 12 := nnn.isLt
  have hg : g.toNat < 2 ^ 4 := g.isLt
  apply BitVec.eq_of_toNat_eq
  rw [wordA, BitVec.toNat_append, ← Nat.shiftLeft_add_eq_or_of_lt hnnn, Nat.shiftLeft_eq, BitVec.toNat_ofNat]
  omega

/-! ### `call` with a free slot and without one (R103, R172) -/

theorem topSlots_of_sp {s : State} {k : Fin 16} (h : s.sp.val = k.val) : topSlots s = [k] := by
  simp [topSlots, h]

theorem exec_call_of_lt (nnn : Addr) {s : State} (h : s.sp.val < 16) :
    exec (.call nnn) s = .next (writePc
      { s with stack := s.stack.set s.sp.val s.pc, sp := ⟨s.sp.val + 1, by omega⟩ } (zextAddr nnn)) := by
  rw [exec, execCall, pushPc_of_lt s h]

theorem exec_call_of_full (nnn : Addr) {s : State} (h : s.sp = 16) :
    exec (.call nnn) s = .fault (.stackOverflow s.pc) := by
  rw [exec, execCall, pushPc_of_full s h, raise]

theorem exec_call_pushes (nnn : Addr) {s : State} {k : Fin 16} (h : s.sp.val = k.val) :
    ∃ t, exec (.call nnn) s = .next t ∧ Frame { slots := [k], sp := true } s t ∧ t.stack[k.val] = s.pc ∧
      t.sp.val = k.val + 1 ∧ t.pc.toNat = nnn.toNat := by
  have hexec := exec_call_of_lt nnn (s := s) (by omega)
  refine ⟨_, hexec, ?_, ?_, ?_, zextAddr_toNat nnn⟩
  · rw [← topSlots_of_sp h]
    exact exec_frame (.call nnn) s _ hexec
  · simp [h]
  · simp [h]

theorem cycle_of_executes_fault {s : State} {i : Instr} {f : Fault} (hi : Executes s i) (h : exec i s = .fault f) :
    cycle s = { after := timerTick s, outcome := .error f } :=
  cycle_of_fault ((runInstruction_of_executes hi).trans h)

/-- Settles O19: the word is the encoder's; the push writes the slot `sp` names, and without a free one the cycle is the tick
alone. -/
theorem callPushesItsOwnAddress : Obligations.CallPushesItsOwnAddress := by
  unfold Obligations.CallPushesItsOwnAddress
  refine fun nnn s => ⟨?_, fun k h => exec_call_pushes nnn h, fun h => ?_⟩
  · have hword : BitVec.ofNat 16 (0x2000 + nnn.toNat) = encode (.call nnn) := (wordA_eq_ofNat 0x2 nnn).symm
    rw [hword, decodeWord_encode]
  · have hfault := exec_call_of_full nnn (s := s) (Fin.ext h)
    refine ⟨hfault, fun hexecutes => ?_⟩
    rw [cycle_of_executes_fault hexecutes hfault]
    exact ⟨rfl, rfl, rfl, rfl⟩

/-! ### The immediate skips and `jump` -/

/-- Settles O20: each is one `skipIf` on the comparison of `V[x]` with the byte. -/
theorem immediateSkipsAddFourOrTwo : Obligations.ImmediateSkipsAddFourOrTwo := by
  unfold Obligations.ImmediateSkipsAddFourOrTwo
  intro x nn s
  refine ⟨⟨_, rfl, ?_, ?_⟩, ⟨_, rfl, ?_, ?_⟩⟩
  · exact exec_frame (.skipEqImm x nn) s _ rfl
  · exact pcPlus_skipIf_beq (readReg s x) nn s
  · exact exec_frame (.skipNeqImm x nn) s _ rfl
  · exact pcPlus_skipIf_bne (readReg s x) nn s

/-- Settles O18: one write of `pc`, of an address that the zero-extension keeps. -/
theorem jumpReplacesPc : Obligations.JumpReplacesPc := by
  unfold Obligations.JumpReplacesPc
  exact fun nnn s => ⟨_, rfl, exec_frame (.jump nnn) s _ rfl, zextAddr_toNat nnn⟩

end Sys2Proof.Machine
end

section
/-! PROOFS. Loading and adding an immediate, and the three instructions that leave a sum or a difference in `V[x]` and then its
carry or not-borrow in `V[15]` (spec/42_arithmetic_logic.md R120 to R122, R127, R128, R130, R133). -/

namespace Sys2Proof.Machine

/-! ### The word of an immediate format (R71) -/

/-- Group, register and byte as one number. -/
theorem wordXB_eq_ofNat (g : Nibble) (x : Reg) (b : Byte) :
    wordXB g x b = BitVec.ofNat 16 (0x1000 * g.toNat + 0x100 * x.val + b.toNat) := by
  have hb : b.toNat < 2 ^ 8 := b.isLt
  have hx : (BitVec.ofFin x : Nibble).toNat < 2 ^ 4 := x.isLt
  have hval : (BitVec.ofFin x : Nibble).toNat = x.val := rfl
  have hg : g.toNat < 2 ^ 4 := g.isLt
  apply BitVec.eq_of_toNat_eq
  rw [wordXB, BitVec.toNat_append, BitVec.toNat_append, ← Nat.shiftLeft_add_eq_or_of_lt hb,
    ← Nat.shiftLeft_add_eq_or_of_lt hx, Nat.shiftLeft_eq, Nat.shiftLeft_eq, BitVec.toNat_ofNat]
  omega

/-! ### Differences and flags as numbers (R120, R22) -/

/-- 256 is added before the subtraction, so that the natural difference is never cut off at 0. -/
theorem byte_sub_toNat (a b : Byte) : (a - b).toNat = (a.toNat + 256 - b.toNat) % 256 := by
  have hb : b.toNat < 2 ^ 8 := b.isLt
  rw [BitVec.toNat_sub]
  omega

theorem carryFlag_toNat (a b : Byte) : (carryFlag a b).toNat = if 255 < a.toNat + b.toNat then 1 else 0 := by
  by_cases h : 255 < a.toNat + b.toNat
  · simp [carryFlag, flagByte, h]
  · simp [carryFlag, flagByte, h]

theorem notBorrowFlag_toNat (a b : Byte) : (notBorrowFlag a b).toNat = if a.toNat < b.toNat then 0 else 1 := by
  by_cases h : a.toNat < b.toNat
  · simp [notBorrowFlag, flagByte, h]
  · simp [notBorrowFlag, flagByte, h]

/-! ### Immediates -/

/-- Settles O23: the word is the encoder's, and the instruction is one register write and then `advance`. -/
theorem setImmLoadsTheByte : Obligations.SetImmLoadsTheByte := by
  unfold Obligations.SetImmLoadsTheByte
  refine fun x nn s => ⟨?_, _, rfl, ?_, ?_, ?_⟩
  · have hword : BitVec.ofNat 16 (0x6000 + 0x100 * x.val + nn.toNat) = encode (.setImm x nn) := (wordXB_eq_ofNat 0x6 x nn).symm
    rw [hword, decodeWord_encode]
  · exact exec_frame (.setImm x nn) s _ rfl
  · exact readReg_writeReg_self s x nn
  · exact pcPlus_advance rfl

/-- Settles O24: the byte written is the sum of bytes, and no other register is in the instruction's row of the access matrix. -/
theorem addImmWrapsAndSetsNoFlag : Obligations.AddImmWrapsAndSetsNoFlag := by
  unfold Obligations.AddImmWrapsAndSetsNoFlag
  refine fun x nn s => ⟨_, rfl, ?_, ?_, ?_⟩
  · exact exec_frame (.addImm x nn) s _ rfl
  · rw [readReg_advance, readReg_writeReg_self, BitVec.toNat_add]
  · exact pcPlus_advance rfl

/-! ### A result in `V[x]` and then a flag in `V[15]` (R133, D6) -/

/-- What every such instruction does, given the numbers its result and its flag are: the flag is written last and so is what
`V[15]` holds for every `x`, while the result stands where `x` is not 15. -/
theorem exec_writes_result_then_flag {i : Instr} {x : Reg} {s : State} {result flag : Byte} {m k : Nat}
    (hexec : exec i s = .next (advance (writeResultThenFlag s x result flag))) (hresult : result.toNat = m)
    (hflag : flag.toNat = k) :
    ∃ t, exec i s = .next t ∧ Frame { regs := [x, flagReg] } s t ∧ PcPlus 2 s t ∧
      (x ≠ flagReg → (readReg t x).toNat = m) ∧ (readReg t flagReg).toNat = k := by
  refine ⟨_, hexec, ?_, pcPlus_advance rfl, fun hx => ?_, ?_⟩
  · exact frameOnNext_advance_writeResultThenFlag s x result flag _ rfl
  · rw [readReg_advance, readReg_writeResultThenFlag, if_neg hx, if_pos rfl, hresult]
  · rw [readReg_advance, readReg_writeResultThenFlag, if_pos rfl, hflag]

/-- Settles O26: the result is the sum of bytes, the flag its carry. -/
theorem addRegGivesSumAndCarry : Obligations.AddRegGivesSumAndCarry := by
  unfold Obligations.AddRegGivesSumAndCarry
  intro x y s
  exact exec_writes_result_then_flag rfl (BitVec.toNat_add ..) (carryFlag_toNat ..)

/-- Settles O27: the result is `V[x] - V[y]`, the flag its not-borrow. -/
theorem subRegGivesDifferenceAndNotBorrow : Obligations.SubRegGivesDifferenceAndNotBorrow := by
  unfold Obligations.SubRegGivesDifferenceAndNotBorrow
  intro x y s
  exact exec_writes_result_then_flag rfl (byte_sub_toNat ..) (notBorrowFlag_toNat ..)

/-- Settles O28: the result is `V[y] - V[x]`, the flag its not-borrow. -/
theorem subRegRevGivesReverseDifference : Obligations.SubRegRevGivesReverseDifference := by
  unfold Obligations.SubRegRevGivesReverseDifference
  intro x y s
  exact exec_writes_result_then_flag rfl (byte_sub_toNat ..) (notBorrowFlag_toNat ..)

end Sys2Proof.Machine
end

section
/-! PROOFS. The three instructions that move bytes between the registers and memory at `I`, where every address is in range
(spec/43_memory_transfer.md R140, R144 to R146, D7). -/

namespace Sys2Proof.Machine

/-! ### The decimal digits (R144) -/

theorem exec_bcdStore_of_fits (x : Reg) {s : State} (h : s.index.toNat + 2 ≤ 0xFFF) :
    exec (.bcdStore x) s = .next (advance (writeBytes s (indexAddr s) (bcdDigits (readReg s x)))) :=
  checkSpan_of_fits (.inr (by rw [indexAddr]; omega)) s _

/-- A byte is below 256, so that each of its digits fits in a byte. -/
theorem bcdDigits_getD_toNat (b : Byte) :
    ((bcdDigits b).getD 0 0).toNat = b.toNat / 100 ∧ ((bcdDigits b).getD 1 0).toNat = b.toNat / 10 % 10 ∧
      ((bcdDigits b).getD 2 0).toNat = b.toNat % 10 := by
  have hb : b.toNat < 2 ^ 8 := b.isLt
  have hdigit : ∀ d < 256, (BitVec.ofNat 8 d).toNat = d := fun d hd => Nat.mod_eq_of_lt hd
  exact ⟨hdigit _ (by omega), hdigit _ (by omega), hdigit _ (by omega)⟩

theorem get_write_bcdDigits (m : List Host.Cell) (base : Nat) (b : Byte) {k : Nat} (hk : k < 3) :
    Memory.get (Memory.write m base (bcdDigits b)) (base + k) = (bcdDigits b).getD k 0 := by
  have hlen : (bcdDigits b).length = 3 := rfl
  rw [Memory.get_write, if_pos (by omega), Nat.add_sub_cancel_left]

theorem get_write_bcdDigits_toNat (m : List Host.Cell) (base : Nat) (b : Byte) :
    (Memory.get (Memory.write m base (bcdDigits b)) base).toNat = b.toNat / 100 ∧
      (Memory.get (Memory.write m base (bcdDigits b)) (base + 1)).toNat = b.toNat / 10 % 10 ∧
      (Memory.get (Memory.write m base (bcdDigits b)) (base + 2)).toNat = b.toNat % 10 := by
  have hfirst : Memory.get (Memory.write m base (bcdDigits b)) base = (bcdDigits b).getD 0 0 :=
    get_write_bcdDigits m base b (k := 0) (by decide)
  rw [hfirst, get_write_bcdDigits m base b (by decide), get_write_bcdDigits m base b (by decide)]
  exact bcdDigits_getD_toNat b

/-- Settles O35: the three bytes written are the digits of `V[x]`, and the rest is the frame. -/
theorem bcdStoreWritesThreeDigits : Obligations.BcdStoreWritesThreeDigits := by
  unfold Obligations.BcdStoreWritesThreeDigits
  intro x s hfits
  have hexec := exec_bcdStore_of_fits x hfits
  refine ⟨_, hexec, ?_, ?_, ?_⟩
  · exact exec_frame (.bcdStore x) s _ hexec
  · exact pcPlus_advance rfl
  · exact get_write_bcdDigits_toNat s.mem (indexAddr s) (readReg s x)

/-! ### Blocks of registers: the bytes read, and `I` afterwards (R145, R146) -/

/-- In range, the sum does not wrap (D7). -/
theorem bumpIndex_index_toNat {t : State} {x : Reg} (h : t.index.toNat + x.val ≤ 0xFFF) :
    (bumpIndex t x).index.toNat = t.index.toNat + x.val + 1 := by
  have hsum := pc_add_toNat t.index (x.val + 1) (by omega)
  rw [bumpIndex, writeIndex_index, hsum]
  omega

theorem readBytes_getD (s : State) (base : Nat) {n k : Nat} (h : k < n) :
    (readBytes s base n).getD k 0 = Memory.get s.mem (base + k) := by
  have hlen : k < (Memory.read s.mem base n).length := by rwa [Memory.length_read]
  rw [readBytes, List.getD_eq_getElem _ _ hlen, Memory.getElem_read]

/-- `V[k]` after a load from `base` is the byte at `base + k` (R146). -/
theorem readReg_writeRegs_readBytes (s : State) (base : Nat) {x k : Reg} (h : k.val ≤ x.val) :
    readReg (writeRegs s (readBytes s base (x.val + 1))) k = Memory.get s.mem (base + k.val) := by
  have hlen : (readBytes s base (x.val + 1)).length = x.val + 1 := Memory.length_read ..
  rw [readReg_writeRegs, if_pos (by omega), readBytes_getD s base (by omega)]

theorem exec_regLoad_of_fits {x : Reg} {s : State} (h : s.index.toNat + x.val ≤ 0xFFF) :
    exec (.regLoad x) s = .next (advance (bumpIndex (writeRegs s (readBytes s (indexAddr s) (x.val + 1))) x)) :=
  checkSpan_of_fits (.inr (by rw [indexAddr]; omega)) s _

/-- Settles O36: byte `k` of the dump is `V[k]`, `I` moves by the field, and the rest is the frame. -/
theorem regDumpStoresUpToVx : Obligations.RegDumpStoresUpToVx := by
  unfold Obligations.RegDumpStoresUpToVx
  intro x s hfits
  have hexec := exec_regDump_of_fits hfits
  refine ⟨_, hexec, ?_, ?_, fun k hk => ?_, ?_⟩
  · exact exec_frame (.regDump x) s _ hexec
  · exact pcPlus_advance rfl
  · exact get_write_regsUpTo s (indexAddr s) hk
  · exact bumpIndex_index_toNat (t := writeBytes s _ _) hfits

/-- Settles O37: the byte read for `V[k]` is the one at `I + k`, `I` moves by the field, and the rest is the frame. -/
theorem regLoadLoadsUpToVx : Obligations.RegLoadLoadsUpToVx := by
  unfold Obligations.RegLoadLoadsUpToVx
  intro x s hfits
  have hexec := exec_regLoad_of_fits hfits
  refine ⟨_, hexec, ?_, ?_, fun k hk => ?_, ?_⟩
  · exact exec_frame (.regLoad x) s _ hexec
  · exact pcPlus_advance rfl
  · exact readReg_writeRegs_readBytes s (indexAddr s) hk
  · exact bumpIndex_index_toNat (t := writeRegs s _) hfits

end Sys2Proof.Machine
end

section
/-! PROOFS. Two equal draws, one after the other on the same pixels (spec/44_graphics.md R152, R153): both cover the same pixels, so
the second flips back what the first flipped. -/

namespace Sys2Proof.Machine

/-! ### What a completed draw leaves (R152) -/

/-- The range check only ever replaces a result by a fault (R53). -/
theorem eq_next_of_checkSpan_eq_next {s t : State} {base n : Nat} {r : Result} (h : checkSpan s base n r = .next t) :
    r = .next t := by
  rcases checkSpan_cases s base n r with ⟨-, e⟩ | ⟨-, -, e⟩
  · exact e.symm.trans h
  · exact nomatch e.symm.trans h

theorem eq_of_exec_draw {x y : Reg} {n : Nibble} {s t : State} (h : exec (.draw x y n) s = .next t) :
    t = advance (writeDrawing s (drawPoints s.px (drawnPoints x y n s))) :=
  (Host.Outcome.next.inj (eq_next_of_checkSpan_eq_next h)).symm

theorem getPixel_of_exec_draw {x y : Reg} {n : Nibble} {s t : State} (h : exec (.draw x y n) s = .next t) (X : Fin 64)
    (Y : Fin 32) : getPixel t.px X Y = (getPixel s.px X Y ^^ decide ((X, Y) ∈ drawnPoints x y n s)) := by
  rw [eq_of_exec_draw h]
  exact getPixel_drawPoints (nodup_drawnPoints x y n s) s.px X Y

theorem getPixel_of_exec_draw_of_covered {x y : Reg} {n : Nibble} {s t : State} (h : exec (.draw x y n) s = .next t)
    {X : Fin 64} {Y : Fin 32} (hc : Covered x y n s X Y) : getPixel t.px X Y = !getPixel s.px X Y := by
  have hmem := (mem_drawnPoints x y n s X Y).2 hc
  rw [getPixel_of_exec_draw h, decide_eq_true hmem, Bool.xor_true]

theorem flagByte_eq_one (b : Bool) : flagByte b = 1 ↔ b = true := by cases b <;> decide

theorem flag_of_exec_draw {x y : Reg} {n : Nibble} {s t : State} (h : exec (.draw x y n) s = .next t) :
    readReg t flagReg = 1 ↔ ∃ X Y, Covered x y n s X Y ∧ getPixel s.px X Y = true := by
  have hflag : readReg t flagReg = flagByte (drawPoints s.px (drawnPoints x y n s)).2 := by
    rw [eq_of_exec_draw h, readReg_advance, writeDrawing, readReg_writeReg_self]
  rw [hflag, flagByte_eq_one, collision_drawPoints (nodup_drawnPoints x y n s), Prod.exists]
  simp only [mem_drawnPoints]

/-! ### The same draw from two states -/

/-- What a draw covers depends on `V[x]`, `V[y]`, `I` and the sprite bytes only (R152). -/
theorem drawnPoints_congr {x y : Reg} {n : Nibble} {s r : State} (hx : readReg r x = readReg s x)
    (hy : readReg r y = readReg s y) (hindex : r.index = s.index)
    (hbytes : ∀ k < n.toNat, Memory.get r.mem (indexAddr s + k) = Memory.get s.mem (indexAddr s + k)) :
    drawnPoints x y n r = drawnPoints x y n s := by
  have hbase : indexAddr r = indexAddr s := congrArg BitVec.toNat hindex
  have hsprite : readBytes r (indexAddr s) n.toNat = readBytes s (indexAddr s) n.toNat := by
    refine List.ext_getElem (by simp [readBytes]) fun k hk _ => ?_
    have hlt : k < n.toNat := by simpa [readBytes] using hk
    simpa [readBytes, Memory.getElem_read] using hbytes k hlt
  rw [drawnPoints, drawnPoints, hx, hy, hbase, hsprite]

/-- Settles O41: both draws flip the same pixels, and flipping a pixel twice leaves it as it was. -/
theorem drawingTwiceRestoresTheScreen : Obligations.DrawingTwiceRestoresTheScreen := by
  unfold Obligations.DrawingTwiceRestoresTheScreen
  intro x y n s t r u hfirst hsecond hx hy hindex hbytes hpx
  have hpoints := drawnPoints_congr hx hy hindex hbytes
  refine Pixels_ext fun X Y => ?_
  rw [getPixel_of_exec_draw hsecond, hpx, getPixel_of_exec_draw hfirst, hpoints, Bool.xor_assoc, Bool.xor_self,
    Bool.xor_false]

/-- Settles O42: the second draw finds the pixels of `t` under the same sprite; where a covered pixel was 0 in `s`, the first draw
made it 1. -/
theorem secondDrawReportsTheFirstOnes : Obligations.SecondDrawReportsTheFirstOnes := by
  unfold Obligations.SecondDrawReportsTheFirstOnes
  intro x y n s t r u hfirst hsecond hx hy hindex hbytes hpx
  have hcovered : ∀ X Y, Covered x y n r X Y ↔ Covered x y n s X Y := fun X Y => by
    rw [← mem_drawnPoints, ← mem_drawnPoints, drawnPoints_congr hx hy hindex hbytes]
  have hflag : readReg u flagReg = 1 ↔ ∃ X Y, Covered x y n s X Y ∧ getPixel t.px X Y = true := by
    rw [flag_of_exec_draw hsecond, hpx]
    simp only [hcovered]
  refine ⟨hflag, fun hclear => hflag.trans ?_⟩
  refine exists_congr fun X => exists_congr fun Y => and_iff_left_of_imp fun hc => ?_
  rw [getPixel_of_exec_draw_of_covered hfirst hc, hclear X Y hc, Bool.not_false]

end Sys2Proof.Machine
end

section
/-! PROOFS. The key skips where `V[x]` names a key (spec/45_timer_input.md R160 to R162). -/

namespace Sys2Proof.Machine

theorem keyOfReg_of_eq {x : Reg} {k : Key} {s : State} (h : (readReg s x).toNat = k.val) : keyOfReg s x = some k := by
  have hlt : (readReg s x).toNat < 16 := h ▸ k.isLt
  rw [keyOfReg_of_lt s x hlt]
  exact congrArg some (Fin.ext h)

theorem skipOnKey_of_keyOfReg (wanted : Bool) {x : Reg} {k : Key} {s : State} (h : keyOfReg s x = some k) :
    skipOnKey wanted x s = .next (skipIf (keyDown s k == wanted) s) := by
  rw [skipOnKey, h]

theorem pcPlus_skipIf_beq_true (b : Bool) (s : State) : PcPlus (if b = true then 4 else 2) s (skipIf (b == true) s) := by
  cases b with
  | true => exact pcPlus_skipIf true s
  | false => exact pcPlus_skipIf false s

theorem pcPlus_skipIf_beq_false (b : Bool) (s : State) : PcPlus (if b = true then 2 else 4) s (skipIf (b == false) s) := by
  cases b with
  | true => exact pcPlus_skipIf false s
  | false => exact pcPlus_skipIf true s

/-- Settles O43: where `V[x]` names key `k`, each is one `skipIf` on whether the latch holds the wanted state for `k`. -/
theorem keySkipsAddFourOrTwo : Obligations.KeySkipsAddFourOrTwo := by
  unfold Obligations.KeySkipsAddFourOrTwo
  intro x k s hk
  have hkey := keyOfReg_of_eq hk
  have hdown : exec (.skipIfKey x) s = _ := skipOnKey_of_keyOfReg true hkey
  have hup : exec (.skipIfNotKey x) s = _ := skipOnKey_of_keyOfReg false hkey
  refine ⟨⟨_, hdown, ?_, ?_⟩, ⟨_, hup, ?_, ?_⟩⟩
  · exact exec_frame (.skipIfKey x) s _ hdown
  · exact pcPlus_skipIf_beq_true (keyDown s k) s
  · exact exec_frame (.skipIfNotKey x) s _ hup
  · exact pcPlus_skipIf_beq_false (keyDown s k) s

end Sys2Proof.Machine
end

section
/-! PROOFS. `wait-key`, and the cycles that end in an error outcome: a fetch above 0xFFF, an unrecognised word, a `return` with an
empty stack (spec/60_exceptions.md R171, R173, R174, R180, R188; spec/40_cycle.md R91, R95; spec/45_timer_input.md R164). -/

namespace Sys2Proof.Machine

/-! ### `wait-key` (R164, R188) -/

theorem exec_waitKey_of_no_key (x : Reg) {s : State} (h : ∀ k : Key, s.key[k.val] = false) :
    exec (.waitKey x) s = .next s := by
  have hnone : lowestKey s = none := (lowestKey_eq_none s).2 h
  rw [exec, execWaitKey, hnone]

theorem exec_waitKey_of_least_key (x : Reg) {k : Key} {s : State} (hk : s.key[k.val] = true)
    (hleast : ∀ j : Key, j.val < k.val → s.key[j.val] = false) :
    exec (.waitKey x) s = .next (advance (writeReg s x (BitVec.ofNat 8 k.val))) := by
  have hsome : lowestKey s = some k := (lowestKey_eq_some s k).2 ⟨hk, hleast⟩
  rw [exec, execWaitKey, hsome]

theorem byte_ofNat_key_toNat (k : Key) : (BitVec.ofNat 8 k.val).toNat = k.val := by
  have hk := k.isLt
  rw [BitVec.toNat_ofNat]
  omega

/-- Settles O44: with no key down the instruction answers the state it was given, so that the step is its tick; else it is one
write of the least key's number and then `advance`. -/
theorem waitKeyTakesTheLowestKey : Obligations.WaitKeyTakesTheLowestKey := by
  unfold Obligations.WaitKeyTakesTheLowestKey
  refine fun x s => ⟨fun hup => ?_, fun k hk hleast => ?_⟩
  · have hwaits := exec_waitKey_of_no_key x hup
    exact ⟨hwaits, fun hexecutes => step_of_next ((runInstruction_of_executes hexecutes).trans hwaits)⟩
  · have hexec := exec_waitKey_of_least_key x hk hleast
    refine ⟨_, hexec, exec_frame (.waitKey x) s _ hexec, ?_, pcPlus_advance rfl⟩
    rw [readReg_advance, readReg_writeReg_self, byte_ofNat_key_toNat]

/-! ### The errors of the cycle itself: fetch and dispatch (R91, R171, R174) -/

theorem step_of_fault {s : State} {f : Fault} (h : runInstruction s = .fault f) : step s = .fault f := by
  rw [step, cycle_of_fault h]; rfl

theorem runInstruction_of_fetch_beyond {s : State} (h : 0xFFE < s.pc.toNat) :
    runInstruction s = .fault (.addressError s.pc (s.pc.toNat + 1)) :=
  checkSpan_of_exceeds (by decide) (by omega) s _

theorem runInstruction_of_unrecognised {s : State} (hpc : s.pc.toNat ≤ 0xFFE)
    (hword : ∃ e, decodeWord (fetchedWord s) = .error e) :
    runInstruction s = .fault (.decodeError s.pc (fetchedWord s)) := by
  obtain ⟨e, he⟩ := hword
  rw [runInstruction, checkSpan_of_fits (.inr (by omega)), dispatchWord, he, raise]

/-- Settles O8: the range check of the fetch raises before anything is dispatched. -/
theorem fetchBeyondMemoryStops : Obligations.FetchBeyondMemoryStops := by
  unfold Obligations.FetchBeyondMemoryStops
  intro s hpc
  have hrun := runInstruction_of_fetch_beyond hpc
  exact ⟨step_of_fault hrun, cycle_of_fault hrun⟩

/-- Settles O9: the fetch is in range and the dispatch raises; the tick that remains does not write `pc`. -/
theorem unrecognisedWordStops : Obligations.UnrecognisedWordStops := by
  unfold Obligations.UnrecognisedWordStops
  intro s hpc hword
  have hrun := runInstruction_of_unrecognised hpc hword
  refine ⟨step_of_fault hrun, ?_⟩
  rw [cycle_of_fault hrun]
  exact ⟨rfl, rfl, rfl⟩

/-! ### `return` with an empty stack (R101, R173) -/

theorem exec_ret_of_empty {s : State} (h : s.sp = 0) : exec .ret s = .fault (.stackUnderflow s.pc) := by
  rw [exec, execRet, popSlot_of_empty s h, raise]

/-- Settles O17: there is no slot to pop, so the cycle is the tick alone, which writes neither `sp` nor `pc`. -/
theorem returnWithEmptyStackStops : Obligations.ReturnWithEmptyStackStops := by
  unfold Obligations.ReturnWithEmptyStackStops
  intro s hsp
  have hfault := exec_ret_of_empty (s := s) (Fin.ext hsp)
  refine ⟨hfault, fun hexecutes => ?_⟩
  rw [cycle_of_executes_fault hexecutes hfault]
  exact ⟨rfl, hsp, rfl⟩

end Sys2Proof.Machine
end

section
/-! PROOFS. The decoder read backwards: a word is the word of the fields it holds, so that one that decodes is the word of its
instruction (spec/30_encoding.md R71 to R75, R81). -/

namespace Sys2Proof.Machine

/-! ### A word from its own fields, one lemma per format (R71) -/

theorem wordA_fields (w : Word) : wordA (groupOf w) (fieldNNN w) = w :=
  (BitVec.extractLsb'_append_extractLsb'_eq_extractLsb' rfl).trans BitVec.extractLsb'_eq_self

theorem wordXB_fields (w : Word) : wordXB (groupOf w) (fieldX w) (fieldNN w) = w := by
  have htop : groupOf w ++ (BitVec.ofFin (fieldX w) : Nibble) = w.extractLsb' 8 8 :=
    BitVec.extractLsb'_append_extractLsb'_eq_extractLsb' rfl
  rw [wordXB, htop]
  exact (BitVec.extractLsb'_append_extractLsb'_eq_extractLsb' rfl).trans BitVec.extractLsb'_eq_self

theorem wordXYN_fields (w : Word) : wordXYN (groupOf w) (fieldX w) (nibbleY w) (fieldN w) = w := by
  have hlow : nibbleY w ++ fieldN w = fieldNN w := BitVec.extractLsb'_append_extractLsb'_eq_extractLsb' rfl
  have hassoc := wordXB_fields w
  rw [← hlow] at hassoc
  exact BitVec.append_assoc.trans hassoc

/-! ### Encode of decode -/

theorem encode_of_decodeGroup0 {w : Word} {i : Instr} (h : decodeGroup0 w = .ok i) : encode i = w := by
  unfold decodeGroup0 at h
  split at h
  next hw => cases h; exact hw.symm
  split at h
  next hw => cases h; exact hw.symm
  cases h

theorem encode_of_decodeGroup8 {w : Word} {i : Instr} (hg : groupOf w = 0x8) (h : decodeGroup8 w = .ok i) :
    encode i = w := by
  have hw := wordXYN_fields w
  rw [hg] at hw
  unfold decodeGroup8 at h
  split at h <;> cases h
  all_goals
    rename_i hn
    rwa [hn] at hw

theorem encode_of_decodeGroupE {w : Word} {i : Instr} (hg : groupOf w = 0xE) (h : decodeGroupE w = .ok i) :
    encode i = w := by
  have hw := wordXB_fields w
  rw [hg] at hw
  unfold decodeGroupE at h
  split at h <;> cases h
  all_goals
    rename_i hb
    rwa [hb] at hw

theorem encode_of_decodeGroupF {w : Word} {i : Instr} (hg : groupOf w = 0xF) (h : decodeGroupF w = .ok i) :
    encode i = w := by
  have hw := wordXB_fields w
  rw [hg] at hw
  unfold decodeGroupF at h
  split at h <;> cases h
  all_goals
    rename_i hb
    rwa [hb] at hw

theorem decodeWord_of_group0 {w : Word} (h : groupOf w = 0x0) : decodeWord w = decodeGroup0 w := by rw [decodeWord, h]; rfl

/-- In the groups without a second selector every word decodes, to an instruction made of the word's own fields (R75, R80). -/
theorem decodeWord_of_other_group {w : Word} (h : groupOf w ∉ [0x0, 0x8, 0xE, 0xF]) :
    ∃ i, decodeWord w = .ok i ∧ encode i = w := by
  have hA := wordA_fields w
  have hXB := wordXB_fields w
  have hXYN := wordXYN_fields w
  unfold decodeWord
  split
  case h_1 hg | h_9 hg | h_15 hg => exact absurd h (by rw [hg]; decide)
  case h_2 hg | h_3 hg | h_11 hg | h_12 hg => rw [hg] at hA; exact ⟨_, rfl, hA⟩
  case h_4 hg | h_5 hg | h_7 hg | h_8 hg | h_13 hg => rw [hg] at hXB; exact ⟨_, rfl, hXB⟩
  case h_6 hg | h_10 hg | h_14 hg => rw [hg] at hXYN; exact ⟨_, rfl, hXYN⟩
  case h_16 => -- none of 0 to E is F
    have hall : ∀ g : Nibble, g ∈ [0x0, 0x1, 0x2, 0x3, 0x4, 0x5, 0x6, 0x7, 0x8, 0x9, 0xA, 0xB, 0xC, 0xD, 0xE, 0xF] := by decide
    have hg := hall (groupOf w)
    simp_all

/-- Everything the decoder can do: a group with a second selector decides by it, in the other groups the word decodes. -/
theorem decodeWord_cases (w : Word) :
    (groupOf w ∉ [0x0, 0x8, 0xE, 0xF] ∧ ∃ i, decodeWord w = .ok i ∧ encode i = w) ∨
      (groupOf w = 0x0 ∧ decodeWord w = decodeGroup0 w) ∨ (groupOf w = 0x8 ∧ decodeWord w = decodeGroup8 w) ∨
      (groupOf w = 0xE ∧ decodeWord w = decodeGroupE w) ∨ (groupOf w = 0xF ∧ decodeWord w = decodeGroupF w) := by
  by_cases hother : groupOf w ∉ [0x0, 0x8, 0xE, 0xF]
  · exact .inl ⟨hother, decodeWord_of_other_group hother⟩
  · simp only [List.mem_cons, List.not_mem_nil, or_false, not_not] at hother
    rcases hother with hg | hg | hg | hg
    · exact .inr (.inl ⟨hg, decodeWord_of_group0 hg⟩)
    · exact .inr (.inr (.inl ⟨hg, decodeWord_of_group8 hg⟩))
    · exact .inr (.inr (.inr (.inl ⟨hg, decodeWord_of_groupE hg⟩)))
    · exact .inr (.inr (.inr (.inr ⟨hg, decodeWord_of_groupF hg⟩)))

theorem encode_of_decodeWord {w : Word} {i : Instr} (h : decodeWord w = .ok i) : encode i = w := by
  rcases decodeWord_cases w with ⟨-, j, hd, hencode⟩ | ⟨-, hd⟩ | ⟨hg, hd⟩ | ⟨hg, hd⟩ | ⟨hg, hd⟩ <;> rw [hd] at h
  · cases h; exact hencode
  · exact encode_of_decodeGroup0 h
  · exact encode_of_decodeGroup8 hg h
  · exact encode_of_decodeGroupE hg h
  · exact encode_of_decodeGroupF hg h

/-- Settles O2: the decoder takes its operands from the fields of the word, of which the encoder builds the word again. -/
theorem encodeInvertsDecode : Obligations.EncodeInvertsDecode := by
  unfold Obligations.EncodeInvertsDecode
  exact fun w i => encode_of_decodeWord

end Sys2Proof.Machine
end

section
/-! PROOFS. Errors: which instruction raises which, that an erring cycle is the tick alone, and that it errs again in every later
cycle (spec/60_exceptions.md R170 to R180; spec/40_cycle.md R95; spec/90_conflicts.md C9). -/

namespace Sys2Proof.Machine

/-! ### The two operations that raise, and the stack's bounds (R53, R172 to R175) -/

theorem checkSpan_next_eq_fault (s t : State) (base n : Nat) (f : Fault) :
    checkSpan s base n (.next t) = .fault f ↔
      f = .addressError s.pc (base + n - 1) ∧ 0 < n ∧ 0xFFF < base + n - 1 := by
  rcases checkSpan_cases s base n (.next t) with ⟨hfits, e⟩ | ⟨hpos, hexceeds, e⟩
  · rw [e]
    exact ⟨nofun, fun ⟨_, _, _⟩ => by omega⟩
  · rw [e, Host.Outcome.fault.injEq, eq_comm]
    exact (and_iff_left ⟨hpos, by omega⟩).symm

theorem checkSpan_succ_next_eq_fault (s t : State) (base n : Nat) (f : Fault) :
    checkSpan s base (n + 1) (.next t) = .fault f ↔ f = .addressError s.pc (base + n) ∧ 0xFFF < base + n := by
  rw [checkSpan_next_eq_fault, and_iff_right n.succ_pos]
  rfl

theorem skipOnKey_eq_fault (wanted : Bool) (x : Reg) (s : State) (f : Fault) :
    skipOnKey wanted x s = .fault f ↔ f = .keyIndexError s.pc (readReg s x) ∧ 15 < (readReg s x).toNat := by
  unfold skipOnKey
  by_cases h : (readReg s x).toNat < 16
  · rw [keyOfReg_of_lt s x h]
    exact ⟨nofun, fun ⟨_, _⟩ => by omega⟩
  · rw [keyOfReg_of_ge s x (by omega), raise, Host.Outcome.fault.injEq, eq_comm]
    exact (and_iff_left (by omega)).symm

theorem exec_ret_of_pos {s : State} (h : 0 < s.sp.val) :
    exec .ret s = .next (writePc { s with sp := ⟨s.sp.val - 1, by omega⟩ } (s.stack[s.sp.val - 1] + 2)) := by
  rw [exec, execRet, popSlot_of_pos s h]

theorem exec_ret_eq_fault (s : State) (f : Fault) :
    exec .ret s = .fault f ↔ f = .stackUnderflow s.pc ∧ s.sp.val = 0 := by
  by_cases h : 0 < s.sp.val
  · rw [exec_ret_of_pos h]
    exact ⟨nofun, fun ⟨_, _⟩ => by omega⟩
  · have hempty : s.sp.val = 0 := by omega
    rw [exec_ret_of_empty (Fin.ext hempty), Host.Outcome.fault.injEq, eq_comm]
    exact (and_iff_left hempty).symm

theorem exec_call_eq_fault (nnn : Addr) (s : State) (f : Fault) :
    exec (.call nnn) s = .fault f ↔ f = .stackOverflow s.pc ∧ s.sp.val = 16 := by
  by_cases h : s.sp.val < 16
  · rw [exec_call_of_lt nnn h]
    exact ⟨nofun, fun ⟨_, _⟩ => by omega⟩
  · have hfull : s.sp.val = 16 := by omega
    rw [exec_call_of_full nnn (Fin.ext hfull), Host.Outcome.fault.injEq, eq_comm]
    exact (and_iff_left hfull).symm

theorem exec_waitKey_ne_fault (x : Reg) (s : State) (f : Fault) : exec (.waitKey x) s ≠ .fault f := by
  rw [exec, execWaitKey]
  cases lowestKey s with
  | none => nofun
  | some k => nofun

/-- Settles O14: an instruction errs where its one guard does, the stack's bounds, the range check or the key's number; every
other is a next state in all states. -/
theorem errorsOfEachInstruction : Obligations.ErrorsOfEachInstruction := by
  unfold Obligations.ErrorsOfEachInstruction
  intro i s f
  cases i with
  | call nnn => exact exec_call_eq_fault nnn s f
  | ret => exact exec_ret_eq_fault s f
  | draw => exact checkSpan_next_eq_fault s _ _ _ f
  | bcdStore | regDump | regLoad => exact checkSpan_succ_next_eq_fault s _ _ _ f
  | skipIfKey x | skipIfNotKey x => exact skipOnKey_eq_fault _ x s f
  | waitKey x => exact iff_false_intro (exec_waitKey_ne_fault x s f)
  | clearScreen | jump | skipEqImm | skipNeqImm | skipEqReg | setImm | addImm | assign | or | and | xor | addReg | subReg
  | shiftRight | subRegRev | shiftLeft | skipNeqReg | setIndex | jumpOffset | random | getDelay | setDelay | setSound
  | addIndex | fontAddress => exact iff_false_intro nofun

/-! ### The cycle that errs (R95, R180) -/

theorem cycle_outcome_eq_error (s : State) (f : Fault) : (cycle s).outcome = .error f ↔ runInstruction s = .fault f := by
  rcases runInstruction_completesOrErrs s with ⟨t, hrun⟩ | ⟨g, hrun⟩
  · rw [cycle_of_next hrun, hrun]
    exact ⟨nofun, nofun⟩
  · rw [cycle_of_fault hrun, hrun, CycleOutcome.error.injEq, Host.Outcome.fault.injEq]

theorem step_eq_fault (s : State) (f : Fault) : step s = .fault f ↔ runInstruction s = .fault f := by
  rcases runInstruction_completesOrErrs s with ⟨t, hrun⟩ | ⟨g, hrun⟩
  · rw [step_of_next hrun, hrun]
    exact ⟨nofun, nofun⟩
  · rw [step_of_fault hrun, hrun]

/-- Settles O10: both say that the instruction raised `f`, and then the tick is all that happens. -/
theorem errorCycleOnlyTicks : Obligations.ErrorCycleOnlyTicks := by
  unfold Obligations.ErrorCycleOnlyTicks
  refine fun s f => ⟨(cycle_outcome_eq_error s f).trans (step_eq_fault s f).symm, fun herr => ?_⟩
  rw [cycle_of_fault ((cycle_outcome_eq_error s f).1 herr)]
  rfl

/-! ### The same error in every later cycle (R180, C9) -/

/-- No error depends on a timer or the tone. -/
theorem exec_timerTick_fault {i : Instr} {s : State} {f : Fault} (h : exec i s = .fault f) :
    exec i (timerTick s) = .fault f :=
  (errorsOfEachInstruction i (timerTick s) f).2 ((errorsOfEachInstruction i s f).1 h)

theorem runInstruction_timerTick_fault {s : State} {f : Fault} (h : runInstruction s = .fault f) :
    runInstruction (timerTick s) = .fault f := by
  rcases runInstruction_cases s with ⟨hpc, e⟩ | ⟨hpc, hword, e⟩ | ⟨i, hi, e⟩ <;> rw [e] at h
  · exact (runInstruction_of_fetch_beyond (s := timerTick s) hpc).trans h
  · exact (runInstruction_of_unrecognised (s := timerTick s) hpc hword).trans h
  · exact (runInstruction_of_executes (s := timerTick s) hi).trans (exec_timerTick_fault h)

theorem runInstruction_afterCycles_fault (k : Nat) {s : State} {f : Fault} (h : runInstruction s = .fault f) :
    runInstruction (afterCycles k s) = .fault f ∧ (afterCycles k s).pc = s.pc ∧ (afterCycles k s).mem = s.mem := by
  induction k generalizing s with
  | zero => exact ⟨h, rfl, rfl⟩
  | succ k ih =>
    rw [afterCycles, cycle_of_fault h]
    exact ih (runInstruction_timerTick_fault h)

/-- Settles O11, by induction on the cycles: each is the tick of a state in which the same instruction errs again. -/
theorem errorsRepeatInEveryLaterCycle : Obligations.ErrorsRepeatInEveryLaterCycle := by
  unfold Obligations.ErrorsRepeatInEveryLaterCycle
  intro k s f herr
  obtain ⟨hrun, hpc, hmem⟩ := runInstruction_afterCycles_fault k ((cycle_outcome_eq_error s f).1 herr)
  exact ⟨(cycle_outcome_eq_error _ f).2 hrun, hpc, hmem⟩

end Sys2Proof.Machine
end

section
/-! PROOFS. The opcode map as numbers and as match and mask: its patterns, the words it leaves out, and that its rows are disjoint
(spec/30_encoding.md R71 to R82). -/

namespace Sys2Proof.Machine

/-! ### The 34 patterns (R81) -/

/-- Group, registers and low nibble as one number. -/
theorem wordXYN_eq_ofNat (g : Nibble) (x y : Reg) (n : Nibble) :
    wordXYN g x (BitVec.ofFin y) n = BitVec.ofNat 16 (0x1000 * g.toNat + 0x100 * x.val + 0x10 * y.val + n.toNat) := by
  have hn : n.toNat < 2 ^ 4 := n.isLt
  have hy : (BitVec.ofFin y : Nibble).toNat < 2 ^ 4 := y.isLt
  have hval : (BitVec.ofFin y : Nibble).toNat = y.val := rfl
  have hlow : (BitVec.ofFin y : Nibble) ++ n = BitVec.ofNat 8 (0x10 * y.val + n.toNat) := by
    apply BitVec.eq_of_toNat_eq
    rw [BitVec.toNat_append, ← Nat.shiftLeft_add_eq_or_of_lt hn, Nat.shiftLeft_eq, BitVec.toNat_ofNat]
    omega
  have hword : wordXYN g x (BitVec.ofFin y) n = wordXB g x ((BitVec.ofFin y : Nibble) ++ n) := BitVec.append_assoc
  rw [hword, wordXB_eq_ofNat, hlow, BitVec.toNat_ofNat]
  congr 1
  omega

theorem decodeWord_of_wordA {g : Nibble} {nnn : Addr} {i : Instr} (h : encode i = wordA g nnn) :
    decodeWord (BitVec.ofNat 16 (0x1000 * g.toNat + nnn.toNat)) = .ok i := by
  rw [← wordA_eq_ofNat, ← h, decodeWord_encode]

theorem decodeWord_of_wordXB {g : Nibble} {x : Reg} {b : Byte} {i : Instr} (h : encode i = wordXB g x b) :
    decodeWord (BitVec.ofNat 16 (0x1000 * g.toNat + 0x100 * x.val + b.toNat)) = .ok i := by
  rw [← wordXB_eq_ofNat, ← h, decodeWord_encode]

theorem decodeWord_of_wordXYN {g : Nibble} {x y : Reg} {n : Nibble} {i : Instr}
    (h : encode i = wordXYN g x (BitVec.ofFin y) n) :
    decodeWord (BitVec.ofNat 16 (0x1000 * g.toNat + 0x100 * x.val + 0x10 * y.val + n.toNat)) = .ok i := by
  rw [← wordXYN_eq_ofNat, ← h, decodeWord_encode]

/-- Settles O4: each pattern is the number of the word that the encoder builds for the row's instruction. -/
theorem tablePatternsDecode : Obligations.TablePatternsDecode := by
  unfold Obligations.TablePatternsDecode
  intro x y n nn nnn XN A XY XS
  have hA : ∀ (g : Nibble) (i : Instr), encode i = wordA g nnn → decodeWord (A g.toNat) = .ok i :=
    fun _ _ => decodeWord_of_wordA
  have hXN : ∀ (g : Nibble) (i : Instr), encode i = wordXB g x nn → decodeWord (XN g.toNat) = .ok i :=
    fun _ _ => decodeWord_of_wordXB
  have hXS : ∀ (g : Nibble) (b : Byte) (i : Instr), encode i = wordXB g x b → decodeWord (XS g.toNat b.toNat) = .ok i :=
    fun _ _ _ => decodeWord_of_wordXB
  have hXY : ∀ (g d : Nibble) (i : Instr), encode i = wordXYN g x (BitVec.ofFin y) d →
      decodeWord (XY g.toNat d.toNat) = .ok i := fun _ _ _ => decodeWord_of_wordXYN
  exact ⟨rfl, rfl, hA 1 _ rfl, hA 2 _ rfl, hXN 3 _ rfl, hXN 4 _ rfl, hXY 5 n _ rfl, hXN 6 _ rfl, hXN 7 _ rfl,
    hXY 8 0 _ rfl, hXY 8 1 _ rfl, hXY 8 2 _ rfl, hXY 8 3 _ rfl, hXY 8 4 _ rfl, hXY 8 5 _ rfl, hXY 8 6 _ rfl,
    hXY 8 7 _ rfl, hXY 8 0xE _ rfl, hXY 9 n _ rfl, hA 0xA _ rfl, hA 0xB _ rfl, hXN 0xC _ rfl, hXY 0xD n _ rfl,
    hXS 0xE 0x9E _ rfl, hXS 0xE 0xA1 _ rfl, hXS 0xF 0x07 _ rfl, hXS 0xF 0x0A _ rfl, hXS 0xF 0x15 _ rfl,
    hXS 0xF 0x18 _ rfl, hXS 0xF 0x1E _ rfl, hXS 0xF 0x29 _ rfl, hXS 0xF 0x33 _ rfl, hXS 0xF 0x55 _ rfl,
    hXS 0xF 0x65 _ rfl⟩

/-! ### Fields as digits of the word's number (R70 to R74) -/

theorem groupOf_toNat (w : Word) : (groupOf w).toNat = w.toNat / 0x1000 := by
  have hw : w.toNat < 2 ^ 16 := w.isLt
  rw [groupOf, BitVec.extractLsb'_toNat, Nat.shiftRight_eq_div_pow]
  omega

theorem fieldN_toNat (w : Word) : (fieldN w).toNat = w.toNat % 0x10 := by
  rw [fieldN, BitVec.extractLsb'_toNat, Nat.shiftRight_zero]

theorem fieldNN_toNat (w : Word) : (fieldNN w).toNat = w.toNat % 0x100 := by
  rw [fieldNN, BitVec.extractLsb'_toNat, Nat.shiftRight_zero]

theorem groupOf_eq_iff (w : Word) (g : Nibble) : groupOf w = g ↔ w.toNat / 0x1000 = g.toNat := by
  rw [← BitVec.toNat_inj, groupOf_toNat]

theorem fieldN_eq_iff (w : Word) (n : Nibble) : fieldN w = n ↔ w.toNat % 0x10 = n.toNat := by
  rw [← BitVec.toNat_inj, fieldN_toNat]

theorem fieldNN_eq_iff (w : Word) (b : Byte) : fieldNN w = b ↔ w.toNat % 0x100 = b.toNat := by
  rw [← BitVec.toNat_inj, fieldNN_toNat]

/-! ### The unrecognised words (R76 to R79, R82) -/

theorem decodeGroup0_eq_error (w : Word) (e : DecodeReject) :
    decodeGroup0 w = .error e ↔ e = .unrecognisedGroup0 ∧ w ∉ [0x00E0, 0x00EE] := by
  unfold decodeGroup0
  split
  next h => simp [h]
  split
  next h => simp [h]
  next h0 h1 => simp_all [eq_comm]

theorem decodeGroup8_eq_error (w : Word) (e : DecodeReject) :
    decodeGroup8 w = .error e ↔
      e = .unrecognisedGroup8 ∧ fieldN w ∉ [0x0, 0x1, 0x2, 0x3, 0x4, 0x5, 0x6, 0x7, 0xE] := by
  unfold decodeGroup8
  split <;> simp_all [eq_comm]

theorem decodeGroupE_eq_error (w : Word) (e : DecodeReject) :
    decodeGroupE w = .error e ↔ e = .unrecognisedGroupE ∧ fieldNN w ∉ [0x9E, 0xA1] := by
  unfold decodeGroupE
  split <;> simp_all [eq_comm]

theorem decodeGroupF_eq_error (w : Word) (e : DecodeReject) :
    decodeGroupF w = .error e ↔
      e = .unrecognisedGroupF ∧ fieldNN w ∉ [0x07, 0x0A, 0x15, 0x18, 0x1E, 0x29, 0x33, 0x55, 0x65] := by
  unfold decodeGroupF
  split <;> simp_all [eq_comm]

/-- Only the groups with a second selector reject, each under its own name. -/
theorem decodeWord_eq_error (w : Word) (e : DecodeReject) :
    decodeWord w = .error e ↔
      groupOf w = 0x0 ∧ decodeGroup0 w = .error e ∨ groupOf w = 0x8 ∧ decodeGroup8 w = .error e ∨
        groupOf w = 0xE ∧ decodeGroupE w = .error e ∨ groupOf w = 0xF ∧ decodeGroupF w = .error e := by
  rcases decodeWord_cases w with ⟨hother, i, hd, -⟩ | ⟨hg, hd⟩ | ⟨hg, hd⟩ | ⟨hg, hd⟩ | ⟨hg, hd⟩ <;> rw [hd]
  · simp_all
  all_goals simp [hg]

/-- The same in numbers: the words R82 lists, group by group. -/
theorem decodeWord_eq_error_iff_listed (w : Word) (e : DecodeReject) :
    decodeWord w = .error e ↔
      e = .unrecognisedGroup0 ∧ w.toNat < 0x1000 ∧ w.toNat ≠ 0x00E0 ∧ w.toNat ≠ 0x00EE ∨
      e = .unrecognisedGroup8 ∧ w.toNat / 0x1000 = 8 ∧ w.toNat % 0x10 ∈ [8, 9, 0xA, 0xB, 0xC, 0xD, 0xF] ∨
      e = .unrecognisedGroupE ∧ w.toNat / 0x1000 = 0xE ∧ w.toNat % 0x100 ∉ [0x9E, 0xA1] ∨
      e = .unrecognisedGroupF ∧ w.toNat / 0x1000 = 0xF ∧
        w.toNat % 0x100 ∉ [0x07, 0x0A, 0x15, 0x18, 0x1E, 0x29, 0x33, 0x55, 0x65] := by
  rw [decodeWord_eq_error, decodeGroup0_eq_error, decodeGroup8_eq_error, decodeGroupE_eq_error, decodeGroupF_eq_error]
  simp only [List.mem_cons, List.not_mem_nil, or_false, groupOf_eq_iff, fieldN_eq_iff, fieldNN_eq_iff,
    ← BitVec.toNat_inj (x := w)]
  cases e with
  | unrecognisedGroup8 => simp; omega -- 8 to D and F are the low nibbles left
  | unrecognisedGroup0 | unrecognisedGroupE | unrecognisedGroupF | truncated => simp

/-- Settles O5: only groups 0, 8, E and F reject, each under its own name and where its selector is none of the table's. -/
theorem unrecognisedWordsAreTheListed : Obligations.UnrecognisedWordsAreTheListed := by
  unfold Obligations.UnrecognisedWordsAreTheListed
  intro w
  simp [decodeWord_eq_error_iff_listed]

/-! ### The rows (R81) -/

theorem encode_in_own_row : ∀ i : Instr, encode i &&& (matchMask i).2 = (matchMask i).1
  | .clearScreen => Laws.RowMatch.clearScreen
  | .ret => Laws.RowMatch.ret
  | .jump n => Laws.RowMatch.jump n
  | .call n => Laws.RowMatch.call n
  | .skipEqImm x n => Laws.RowMatch.skipEqImm x n
  | .skipNeqImm x n => Laws.RowMatch.skipNeqImm x n
  | .skipEqReg x y i => Laws.RowMatch.skipEqReg x y i
  | .setImm x n => Laws.RowMatch.setImm x n
  | .addImm x n => Laws.RowMatch.addImm x n
  | .assign x y => Laws.RowMatch.assign x y
  | .or x y => Laws.RowMatch.or x y
  | .and x y => Laws.RowMatch.and x y
  | .xor x y => Laws.RowMatch.xor x y
  | .addReg x y => Laws.RowMatch.addReg x y
  | .subReg x y => Laws.RowMatch.subReg x y
  | .shiftRight x i => Laws.RowMatch.shiftRight x i
  | .subRegRev x y => Laws.RowMatch.subRegRev x y
  | .shiftLeft x i => Laws.RowMatch.shiftLeft x i
  | .skipNeqReg x y i => Laws.RowMatch.skipNeqReg x y i
  | .setIndex n => Laws.RowMatch.setIndex n
  | .jumpOffset n => Laws.RowMatch.jumpOffset n
  | .random x n => Laws.RowMatch.random x n
  | .draw x y n => Laws.RowMatch.draw x y n
  | .skipIfKey x => Laws.RowMatch.skipIfKey x
  | .skipIfNotKey x => Laws.RowMatch.skipIfNotKey x
  | .getDelay x => Laws.RowMatch.getDelay x
  | .waitKey x => Laws.RowMatch.waitKey x
  | .setDelay x => Laws.RowMatch.setDelay x
  | .setSound x => Laws.RowMatch.setSound x
  | .addIndex x => Laws.RowMatch.addIndex x
  | .fontAddress x => Laws.RowMatch.fontAddress x
  | .bcdStore x => Laws.RowMatch.bcdStore x
  | .regDump x => Laws.RowMatch.regDump x
  | .regLoad x => Laws.RowMatch.regLoad x

theorem matchMask_mem_opcodeRows (i : Instr) : matchMask i ∈ opcodeRows := by
  cases i <;> simp [matchMask, opcodeRows]

/-- Two rows that a word matches agree where both masks look. -/
theorem opcodeRows_pairwise_differ : opcodeRows.Pairwise fun a b => a.1 &&& b.2 ≠ b.1 &&& a.2 := by decide

/-! ### No row for an unrecognised word: what each mask keeps of a word, as a number -/

theorem and_F000_toNat (w : Word) : (w &&& 0xF000).toNat = 0x1000 * (w.toNat / 0x1000) := by
  have hw : w.toNat < 2 ^ 16 := w.isLt
  have hmask := wordA_and_group (groupOf w) (fieldNNN w)
  rw [wordA_fields] at hmask
  rw [hmask, wordA_eq_ofNat, groupOf_toNat, BitVec.toNat_ofNat]
  exact Nat.mod_eq_of_lt (show 0x1000 * (w.toNat / 0x1000) < 2 ^ 16 by omega)

theorem and_F00F_toNat (w : Word) : (w &&& 0xF00F).toNat = 0x1000 * (w.toNat / 0x1000) + w.toNat % 0x10 := by
  have hw : w.toNat < 2 ^ 16 := w.isLt
  have hmask : w &&& 0xF00F = wordXYN (groupOf w) 0 (BitVec.ofFin 0) (fieldN w) := by
    have h := wordXYN_and_nibble (groupOf w) (fieldX w) (nibbleY w) (fieldN w)
    rwa [wordXYN_fields] at h
  rw [hmask, wordXYN_eq_ofNat, groupOf_toNat, fieldN_toNat, BitVec.toNat_ofNat]
  exact Nat.mod_eq_of_lt (show 0x1000 * (w.toNat / 0x1000) + w.toNat % 0x10 < 2 ^ 16 by omega)

theorem and_F0FF_toNat (w : Word) : (w &&& 0xF0FF).toNat = 0x1000 * (w.toNat / 0x1000) + w.toNat % 0x100 := by
  have hw : w.toNat < 2 ^ 16 := w.isLt
  have hmask := wordXB_and_byte (groupOf w) (fieldX w) (fieldNN w)
  rw [wordXB_fields] at hmask
  rw [hmask, wordXB_eq_ofNat, groupOf_toNat, fieldNN_toNat, BitVec.toNat_ofNat]
  exact Nat.mod_eq_of_lt (show 0x1000 * (w.toNat / 0x1000) + w.toNat % 0x100 < 2 ^ 16 by omega)

theorem no_row_of_decodeWord_eq_error {w : Word} {e : DecodeReject} (h : decodeWord w = .error e) :
    ∀ row ∈ opcodeRows, w &&& row.2 ≠ row.1 := by
  have hlisted := (decodeWord_eq_error_iff_listed w e).1 h
  have hall : w &&& 0xFFFF = w := BitVec.and_allOnes
  simp only [List.mem_cons, List.not_mem_nil, or_false] at hlisted
  simp only [opcodeRows, List.cons_append, List.nil_append, List.forall_mem_cons, List.not_mem_nil, false_implies,
    implies_true, and_true, hall, ne_eq, ← BitVec.toNat_inj, and_F000_toNat, and_F00F_toNat, and_F0FF_toNat,
    BitVec.reduceToNat]
  rcases hlisted with ⟨-, hw⟩ | ⟨-, hg, hsel⟩ | ⟨-, hg, hsel⟩ | ⟨-, hg, hsel⟩
  · omega
  · omega
  · omega
  · omega

theorem row_of_decodeWord_eq_ok {w : Word} {i : Instr} (h : decodeWord w = .ok i) :
    matchMask i ∈ opcodeRows ∧ w &&& (matchMask i).2 = (matchMask i).1 := by
  rw [← encode_of_decodeWord h]
  exact ⟨matchMask_mem_opcodeRows i, encode_in_own_row i⟩

/-- Settles O6: rows that differ where both masks look share no word; a word that decodes is its instruction's, which lies in the
row of that instruction; an unrecognised word lies, by its number, in none. -/
theorem eachWordMatchesAtMostOneRow : Obligations.EachWordMatchesAtMostOneRow := by
  unfold Obligations.EachWordMatchesAtMostOneRow
  refine ⟨?_, fun w i => row_of_decodeWord_eq_ok, fun w =>
    ⟨fun ⟨e, he⟩ => no_row_of_decodeWord_eq_error he, fun h => ?_⟩⟩
  · refine opcodeRows_pairwise_differ.imp fun hdiffer w ⟨ha, hb⟩ => hdiffer ?_
    rw [← ha, ← hb, BitVec.and_assoc, BitVec.and_assoc, BitVec.and_comm _ (Prod.snd _)]
  · cases hd : decodeWord w with
    | error e => exact ⟨e, rfl⟩
    | ok i =>
      obtain ⟨hmem, hmatch⟩ := row_of_decodeWord_eq_ok hd
      exact absurd hmatch (h _ hmem)

end Sys2Proof.Machine
end

section
/-! PROOFS. `return`, `jump-offset` and the index register; the instructions that write one register; the shifts, `random`, and the
flag of all six flag writers (spec/41_control_flow.md R101, R108; spec/42_arithmetic_logic.md R120 to R133;
spec/43_memory_transfer.md R141 to R143). -/

namespace Sys2Proof.Machine

/-! ### `return` and `jump-offset` (R101, R108) -/

/-- Settles O16: the pop takes the slot below `sp` and writes no slot. -/
theorem returnPopsAndAddsTwo : Obligations.ReturnPopsAndAddsTwo := by
  unfold Obligations.ReturnPopsAndAddsTwo
  intro s k hsp
  have hexec := exec_ret_of_pos (s := s) (by omega)
  have hslot : s.sp.val - 1 = k.val := by omega
  refine ⟨_, hexec, exec_frame .ret s _ hexec, hslot, ?_⟩
  simp only [writePc_pc, hslot]
  exact pc_add_toNat _ 2 (by decide)

/-- Settles O22: the sum of a byte and a 12-bit address is far below 65536. -/
theorem jumpOffsetAddsRegisterZero : Obligations.JumpOffsetAddsRegisterZero := by
  unfold Obligations.JumpOffsetAddsRegisterZero
  intro nnn s
  refine ⟨_, rfl, exec_frame (.jumpOffset nnn) s _ rfl, ?_⟩
  have hreg := (readReg s 0).isLt
  have hnnn := nnn.isLt
  rw [writePc_pc, BitVec.toNat_add, zextReg_toNat, zextAddr_toNat]
  omega

/-! ### The index register (R141 to R143) -/

/-- What every instruction that only loads `I` does, given the number it loads. -/
theorem exec_writes_index {i : Instr} {s : State} {a : Word} {m : Nat} (hexec : exec i s = .next (advance (writeIndex s a)))
    (ha : a.toNat = m) : ∃ t, exec i s = .next t ∧ Frame { index := true } s t ∧ t.index.toNat = m ∧ PcPlus 2 s t :=
  ⟨_, hexec, frameOnNext_advance_writeIndex s a _ rfl, ha, pcPlus_advance rfl⟩

/-- Settles O32: the zero-extension keeps the address. -/
theorem setIndexLoadsTheAddress : Obligations.SetIndexLoadsTheAddress := by
  unfold Obligations.SetIndexLoadsTheAddress
  exact fun nnn s => exec_writes_index rfl (zextAddr_toNat nnn)

/-- Settles O33: the word loaded is the sum of words, which wraps. -/
theorem addIndexWrapsAt65536 : Obligations.AddIndexWrapsAt65536 := by
  unfold Obligations.AddIndexWrapsAt65536
  intro x s
  refine exec_writes_index rfl ?_
  rw [BitVec.toNat_add, zextReg_toNat]

/-- Five times a byte fits in a word. -/
theorem glyphAddr_toNat (b : Byte) : (glyphAddr b).toNat = 5 * b.toNat := by
  have hb : b.toNat < 2 ^ 8 := b.isLt
  have hfive : (5 : Word).toNat = 5 := rfl
  rw [glyphAddr, BitVec.toNat_mul, BitVec.toNat_setWidth, hfive]
  omega

/-- Settles O34: the product of the whole byte is the word loaded. -/
theorem fontAddressIsFiveTimesVx : Obligations.FontAddressIsFiveTimesVx := by
  unfold Obligations.FontAddressIsFiveTimesVx
  exact fun x s => exec_writes_index rfl (glyphAddr_toNat (readReg s x))

/-! ### One register written (R123 to R126, R132) -/

/-- What every instruction that only writes `V[x]` does; `P` is what is known of the byte. -/
theorem exec_writes_reg {i : Instr} {x : Reg} {s : State} {b : Byte} (P : Byte → Prop)
    (hexec : exec i s = .next (advance (writeReg s x b))) (hb : P b) :
    ∃ t, exec i s = .next t ∧ Frame { regs := [x] } s t ∧ PcPlus 2 s t ∧ P (readReg t x) := by
  refine ⟨_, hexec, frameOnNext_advance_writeReg s x b _ rfl, pcPlus_advance rfl, ?_⟩
  rwa [readReg_advance, readReg_writeReg_self]

/-- Settles O25: each is one register write of the copied byte or of the bitwise result. -/
theorem copyAndLogicWriteOnlyVx : Obligations.CopyAndLogicWriteOnlyVx := by
  unfold Obligations.CopyAndLogicWriteOnlyVx
  intro x y s
  refine ⟨?_, ?_, ?_, ?_⟩
  · exact exec_writes_reg (· = readReg s y) rfl rfl
  · exact exec_writes_reg (fun v => ∀ b < 8, v.getLsbD b = ((readReg s x).getLsbD b || (readReg s y).getLsbD b)) rfl
      fun b _ => BitVec.getLsbD_or
  · exact exec_writes_reg (fun v => ∀ b < 8, v.getLsbD b = ((readReg s x).getLsbD b && (readReg s y).getLsbD b)) rfl
      fun b _ => BitVec.getLsbD_and
  · exact exec_writes_reg (fun v => ∀ b < 8, v.getLsbD b = ((readReg s x).getLsbD b ^^ (readReg s y).getLsbD b)) rfl
      fun b _ => BitVec.getLsbD_xor

/-- Settles O31: the byte is whatever the draw gives, and a bit that `nn` clears is cleared by the mask. -/
theorem randomIsAFreeByteMasked : Obligations.RandomIsAFreeByteMasked := by
  unfold Obligations.RandomIsAFreeByteMasked
  intro x nn s
  have hbyte : readReg (advance (writeReg (drawRandom s).2 x ((drawRandom s).1 &&& nn))) x =
      Config.freeRandom s.rndCount &&& nn := readReg_writeReg_self ..
  refine ⟨_, rfl, execRandom_frame x nn s _ rfl, pcPlus_advance rfl, hbyte, rfl, fun b _ hclear => ?_⟩
  rw [hbyte, BitVec.getLsbD_and, hclear, Bool.and_false]

/-! ### The shifts (R129, R131) -/

theorem byte_shiftRight_one_toNat (b : Byte) : (b >>> 1).toNat = b.toNat / 2 := by
  rw [BitVec.toNat_ushiftRight, Nat.shiftRight_eq_div_pow, Nat.pow_one]

theorem byte_shiftLeft_one_toNat (b : Byte) : (b <<< 1).toNat = 2 * b.toNat % 256 := by
  rw [BitVec.toNat_shiftLeft, Nat.shiftLeft_eq, Nat.pow_one, Nat.mul_comm]

theorem flagByte_toNat (b : Bool) : (flagByte b).toNat = b.toNat := by cases b <;> rfl

theorem lowBitFlag_toNat (b : Byte) : (lowBitFlag b).toNat = b.toNat % 2 := by
  rw [lowBitFlag, flagByte_toNat, BitVec.getLsbD, Nat.toNat_testBit]
  omega

theorem highBitFlag_toNat (b : Byte) : (highBitFlag b).toNat = b.toNat / 128 := by
  have hb : b.toNat < 2 ^ 8 := b.isLt
  rw [highBitFlag, flagByte_toNat, BitVec.getLsbD, Nat.toNat_testBit]
  omega

/-- Settles O29: the result is half or double the byte, the flag the bit that leaves it. -/
theorem shiftsMoveOneBitIntoTheFlag : Obligations.ShiftsMoveOneBitIntoTheFlag := by
  unfold Obligations.ShiftsMoveOneBitIntoTheFlag
  refine fun x ignored s => ⟨?_, ?_⟩
  · exact exec_writes_result_then_flag rfl (byte_shiftRight_one_toNat _) (lowBitFlag_toNat _)
  · exact exec_writes_result_then_flag rfl (byte_shiftLeft_one_toNat _) (highBitFlag_toNat _)

/-! ### Every flag is 0 or 1 (R22) -/

theorem flagByte_eq_zero_or_one (b : Bool) : flagByte b = 0 ∨ flagByte b = 1 := by
  cases b with
  | false => exact .inl rfl
  | true => exact .inr rfl

theorem flag_of_next_writeResultThenFlag {s t : State} {x : Reg} {result : Byte} {b : Bool}
    (h : (.next (advance (writeResultThenFlag s x result (flagByte b))) : Result) = .next t) :
    readReg t flagReg = 0 ∨ readReg t flagReg = 1 := by
  cases h
  rw [readReg_advance, readReg_writeResultThenFlag, if_pos rfl]
  exact flagByte_eq_zero_or_one b

theorem flag_of_exec_draw_eq_zero_or_one {x y : Reg} {n : Nibble} {s t : State} (h : exec (.draw x y n) s = .next t) :
    readReg t flagReg = 0 ∨ readReg t flagReg = 1 := by
  rw [eq_of_exec_draw h, readReg_advance, writeDrawing, readReg_writeReg_self]
  exact flagByte_eq_zero_or_one _

/-- Settles O30: five write `V[15]` last, `draw` writes no other register, and what each writes there is a `flagByte`. -/
theorem flagWritersLeaveZeroOrOne : Obligations.FlagWritersLeaveZeroOrOne := by
  unfold Obligations.FlagWritersLeaveZeroOrOne
  rintro x y n s t ⟨i, hi, hexec⟩
  simp only [List.mem_cons, List.not_mem_nil, or_false] at hi
  rcases hi with rfl | rfl | rfl | rfl | rfl | rfl
  · exact flag_of_next_writeResultThenFlag hexec
  · exact flag_of_next_writeResultThenFlag hexec
  · exact flag_of_next_writeResultThenFlag hexec
  · exact flag_of_next_writeResultThenFlag hexec
  · exact flag_of_next_writeResultThenFlag hexec
  · exact flag_of_exec_draw_eq_zero_or_one hexec

end Sys2Proof.Machine
end

section
/-! PROOFS. What a dump stored, loaded back; the screen cleared and drawn on (spec/43_memory_transfer.md R145, R146;
spec/44_graphics.md R150 to R152; spec/90_conflicts.md C7). -/

namespace Sys2Proof.Machine

/-! ### A dump and a later load (C7) -/

/-- A dump that completes was in range (R53). -/
theorem fits_of_exec_regDump {x : Reg} {s t : State} (h : exec (.regDump x) s = .next t) :
    s.index.toNat + x.val ≤ 0xFFF := by
  by_contra hexceeds
  have hfault := (errorsOfEachInstruction (.regDump x) s _).2 ⟨rfl, Nat.lt_of_not_le hexceeds⟩
  exact nomatch hfault.symm.trans h

/-- Settles O38: the load reads at the same addresses, in range again, and finds there the bytes the dump wrote. -/
theorem loadRestoresWhatDumpStored : Obligations.LoadRestoresWhatDumpStored := by
  unfold Obligations.LoadRestoresWhatDumpStored
  intro x s t r hdump hmem hindex
  have hfits := fits_of_exec_regDump hdump
  have hbase : indexAddr r = indexAddr s := congrArg BitVec.toNat hindex
  refine ⟨_, exec_regLoad_of_fits (hindex ▸ hfits), fun k hk => ?_⟩
  cases (exec_regDump_of_fits hfits).symm.trans hdump
  calc readReg (writeRegs r (readBytes r (indexAddr r) (x.val + 1))) k
      = Memory.get r.mem (indexAddr s + k.val) := by rw [readReg_writeRegs_readBytes r _ hk, hbase]
    _ = Memory.get (Memory.write s.mem (indexAddr s) (regsUpTo s x)) (indexAddr s + k.val) := hmem _
    _ = readReg s k := get_write_regsUpTo s _ hk

/-! ### The screen (R151, R152) -/

/-- Settles O39: the one write is of the blank screen. -/
theorem clearScreenZeroesEveryPixel : Obligations.ClearScreenZeroesEveryPixel := by
  unfold Obligations.ClearScreenZeroesEveryPixel
  exact fun s => ⟨_, rfl, execClearScreen_frame s _ rfl, pcPlus_advance rfl, getPixel_blankScreen⟩

theorem exec_draw_of_fits (x y : Reg) {n : Nibble} {s : State} (h : n.toNat = 0 ∨ s.index.toNat + n.toNat - 1 ≤ 0xFFF) :
    exec (.draw x y n) s = .next (advance (writeDrawing s (drawPoints s.px (drawnPoints x y n s)))) :=
  checkSpan_of_fits (by rw [indexAddr]; omega) s _

theorem getPixel_of_exec_draw_of_not_covered {x y : Reg} {n : Nibble} {s t : State} (h : exec (.draw x y n) s = .next t)
    {X : Fin 64} {Y : Fin 32} (hc : ¬ Covered x y n s X Y) : getPixel t.px X Y = getPixel s.px X Y := by
  have hmem : (X, Y) ∉ drawnPoints x y n s := fun hin => hc ((mem_drawnPoints x y n s X Y).1 hin)
  rw [getPixel_of_exec_draw h, decide_eq_false hmem, Bool.xor_false]

/-- Settles O40: in range the draw is one `writeDrawing`, whose pixels flip where covered and whose flag, 0 or 1, is 1 exactly on
a collision. -/
theorem drawFlipsTheCoveredPixels : Obligations.DrawFlipsTheCoveredPixels := by
  unfold Obligations.DrawFlipsTheCoveredPixels
  intro x y n s hfits
  have hexec := exec_draw_of_fits x y hfits
  have hflag := flag_of_exec_draw hexec
  refine ⟨_, hexec, execDraw_frame x y n s _ hexec, pcPlus_advance rfl, rfl, fun X Y => ⟨?_, ?_⟩, ?_⟩
  · exact getPixel_of_exec_draw_of_covered hexec
  · exact getPixel_of_exec_draw_of_not_covered hexec
  · rcases flag_of_exec_draw_eq_zero_or_one hexec with hzero | hone
    · exact .inr ⟨hzero, fun hcollision => absurd (hzero.symm.trans (hflag.2 hcollision)) (by decide)⟩
    · exact .inl ⟨hone, hflag.1 hone⟩

end Sys2Proof.Machine
end

section
/-! PROOFS. Reset, load, the end of a run and the host's view of the pixels (spec/70_reset_and_hazards.md R200 to R207;
spec/10_state.md R29, R35, R37). -/

namespace Sys2Proof.Machine

/-! ### Reset (R37, R200) -/

/-- Settles O49: no cell is listed, every slot is 0 and `pc` is 0x200. -/
theorem invariantHoldsAtReset : Obligations.InvariantHoldsAtReset := by
  unfold Obligations.InvariantHoldsAtReset
  exact stateInvariant_reset

/-- Memory that lists nothing reads as the font and, from 0x050 on, as 0 (R57, R200). -/
theorem Memory.get_nil_eq_font (a : Nat) : Memory.get [] a = if a < 80 then font.getD a 0 else 0 := by
  have hlen : font.length = 80 := rfl
  by_cases h : a < 80
  · rw [if_pos h]; rfl
  · rw [if_neg h]
    exact List.getD_eq_default _ _ (by omega)

/-- Settles O51: memory reads by the font table; every other value stands in `State.reset`. -/
theorem resetLeavesTheResetValues : Obligations.ResetLeavesTheResetValues := by
  unfold Obligations.ResetLeavesTheResetValues
  intro s
  refine ⟨Memory.get_nil_eq_font, fun x => ?_, rfl, rfl, fun k => ?_, rfl, rfl, rfl, getPixel_blankScreen, rfl, rfl, rfl, rfl⟩
  · exact Vector.getElem_replicate x.isLt
  · exact Vector.getElem_replicate k.isLt

/-! ### Load (R204, R205) -/

theorem hostLoad_of_fits {bytes : List Byte} (h : bytes.length ≤ 3584) (s : State) :
    hostLoad bytes s = (writeBytes (hostReset s) 0x200 bytes, .ok) :=
  if_neg (Nat.not_lt.2 h)

theorem hostLoad_of_oversized {bytes : List Byte} (h : 3584 < bytes.length) (s : State) :
    hostLoad bytes s = (hostReset s, .loadError) :=
  if_pos h

/-- Settles O52: one write of the program after a reset, which touches memory alone. -/
theorem loadCopiesTheProgramAfterReset : Obligations.LoadCopiesTheProgramAfterReset := by
  unfold Obligations.LoadCopiesTheProgramAfterReset
  intro bytes s hfits
  rw [hostLoad_of_fits hfits]
  refine ⟨rfl, fun k hk => ?_, fun a ha => ?_, rfl⟩
  · rw [writeBytes_mem, Memory.get_write, if_pos (by omega), Nat.add_sub_cancel_left, List.getD_eq_getElem _ _ hk]
  · rw [writeBytes_mem, Memory.get_write, if_neg (by omega)]

/-- Settles O53, by the length of the program. -/
theorem oversizedLoadLeavesTheResetState : Obligations.OversizedLoadLeavesTheResetState := by
  unfold Obligations.OversizedLoadLeavesTheResetState
  intro bytes s
  by_cases h : 3584 < bytes.length
  · rw [hostLoad_of_oversized h]
    exact ⟨iff_of_true rfl h, fun _ => rfl⟩
  · rw [hostLoad_of_fits (Nat.not_lt.1 h)]
    exact ⟨iff_of_false nofun h, nofun⟩

/-! ### The end of a run (R207, D28) -/

theorem eq_setWidth_iff_toNat_eq {pc : Word} (hpc : pc.toNat ≤ 0xFFE) (nnn : Addr) :
    nnn = pc.setWidth 12 ↔ pc.toNat = nnn.toNat := by
  rw [← BitVec.toNat_inj, BitVec.toNat_setWidth]
  omega

/-- The rule's definition is a self-jump: within RAM the 12 bits of the target are all of `pc`. -/
theorem programEnded_iff (s : State) :
    programEnded s = true ↔ ∃ nnn, Executes s (.jump nnn) ∧ s.pc.toNat = nnn.toNat := by
  rw [programEnded, Bool.and_eq_true, Bool.not_eq_true', outOfRange_eq_false]
  constructor
  · rintro ⟨hfits, hjump⟩
    have hpc : s.pc.toNat ≤ 0xFFE := by omega
    cases hd : decodeWord (fetchedWord s) with
    | ok i =>
      rw [hd] at hjump
      obtain rfl := of_decide_eq_true hjump
      exact ⟨_, ⟨hpc, hd⟩, (eq_setWidth_iff_toNat_eq hpc _).1 rfl⟩
    | error e => simp [hd] at hjump
  · rintro ⟨nnn, ⟨hpc, hd⟩, htarget⟩
    refine ⟨.inr (by omega), ?_⟩
    rw [hd]
    exact decide_eq_true (congrArg Instr.jump ((eq_setWidth_iff_toNat_eq hpc nnn).2 htarget))

/-- A jump to its own address puts back the `pc` it had. -/
theorem runInstruction_of_programEnded {s : State} (h : programEnded s = true) : runInstruction s = .next s := by
  obtain ⟨nnn, hexecutes, htarget⟩ := (programEnded_iff s).1 h
  have hpc : zextAddr nnn = s.pc := BitVec.eq_of_toNat_eq ((zextAddr_toNat nnn).trans htarget.symm)
  rw [runInstruction_of_executes hexecutes, exec, execJump, hpc]
  rfl

/-- Each cycle at a self-jump is the tick of the same state, so that the program has still ended. -/
theorem afterCycles_of_programEnded (k : Nat) {s : State} (h : programEnded s = true) :
    (∃ d e b, afterCycles k s = { s with dt := d, st := e, tone := b } ∧ d.toNat = s.dt.toNat - k ∧
      e.toNat = s.st.toNat - k) ∧ programEnded (afterCycles k s) = true := by
  induction k generalizing s with
  | zero => exact ⟨⟨s.dt, s.st, s.tone, rfl, rfl, rfl⟩, h⟩
  | succ k ih =>
    have hticked : programEnded (timerTick s) = true := h
    obtain ⟨⟨d, e, b, hafter, hd, he⟩, hended⟩ := ih hticked
    rw [timerTick_dt_toNat, Nat.sub_sub, Nat.add_comm] at hd
    rw [timerTick_st_toNat, Nat.sub_sub, Nat.add_comm] at he
    rw [afterCycles, cycle_of_next (runInstruction_of_programEnded h)]
    exact ⟨⟨d, e, b, hafter, hd, he⟩, hended⟩

/-- Settles O54: a self-jump completes in the state it found, in the first cycle as in every later one. -/
theorem selfJumpOnlyRunsTheTimersDown : Obligations.SelfJumpOnlyRunsTheTimersDown := by
  unfold Obligations.SelfJumpOnlyRunsTheTimersDown
  refine fun s => ⟨programEnded_iff s, fun k h => ?_⟩
  obtain ⟨hafter, hended⟩ := afterCycles_of_programEnded k h
  refine ⟨hafter, ?_, hended⟩
  rw [cycle_of_next (runInstruction_of_programEnded hended)]

/-! ### The host's view (R29, R35, D23) -/

theorem vector_flatten_toList {α : Type} {m n : Nat} (rows : Vector (Vector α m) n) :
    rows.flatten.toList = rows.toList.flatMap Vector.toList := by
  have hflatten : rows.flatten.toList = (rows.toArray.map Vector.toArray).flatten.toList := rfl
  rw [hflatten, Array.toList_flatten, Array.toList_map, List.map_map, List.flatMap_def]
  rfl

theorem pixelView_eq_flatten (s : State) : pixelView s = s.px.flatten.toList := (vector_flatten_toList s.px).symm

/-- Settles O59: row by row, index `y * 64 + x` is column `x` of row `y`. -/
theorem pixelViewIsRowByRow : Obligations.PixelViewIsRowByRow := by
  unfold Obligations.PixelViewIsRowByRow
  intro s X Y
  have hlt : Y.val * 64 + X.val < 32 * 64 := by omega
  have hrow : (Y.val * 64 + X.val) / 64 = Y.val := by omega
  have hcol : (Y.val * 64 + X.val) % 64 = X.val := by omega
  rw [pixelView_eq_flatten]
  refine ⟨Vector.length_toList, ?_, rfl⟩
  rw [Vector.getElem?_toList, Vector.getElem?_eq_getElem hlt, Vector.getElem_flatten]
  simp only [hrow, hcol, getPixel]

end Sys2Proof.Machine
end
